-- ==== Sys2Proof/Word.lean ====
section
/-! DEFINITION. The unsigned widths of the CORE (00_scope.md R10) and their plainest arithmetic. -/

namespace Sys2Proof

/-- u8: a general register, a timer, a byte of memory. -/
abbrev Byte := BitVec 8

/-- u16: I, pc, a stack entry, an instruction word. -/
abbrev Word := BitVec 16

/-- u12: the immediate `nnn`. -/
abbrev Imm12 := BitVec 12

/-- A 4-bit field of the instruction word. -/
abbrev Nibble := BitVec 4

/-- A register index, 0x0 to 0xF (10_state.md R20). -/
abbrev Reg := Nibble

/-- `zext_16` of a byte (R10). Nothing in this ISA sign-extends. -/
def zextByte (v : Byte) : Word := v.setWidth 16

/-- `zext_16` of `nnn` (30_encoding.md R73). -/
def zextImm (n : Imm12) : Word := n.setWidth 16

end Sys2Proof
end

