-- ==== Sys2Proof/Machine/Flags.lean ====
section
/-! DEFINITION. Every flag computation of the ISA (41_alu.md R126 to R131, 43_display.md R162). -/

namespace Sys2Proof.Machine

/-- VF, the flag register (10_state.md R21). -/
abbrev VF : Reg := 0xF#4

/-- A flag as the byte written to VF: 1 or 0. -/
def flagByte (c : Bool) : Byte := if c then 1 else 0

/-- ADD: the true sum exceeds 255 (R127). -/
def carryOut (v u : Byte) : Bool := decide (v.toNat + u.toNat > 255)

/-- SUB, SUBN: no borrow occurred, minuend >= subtrahend (R128, R130). -/
def noBorrow (minuend subtrahend : Byte) : Bool := decide (minuend.toNat ≥ subtrahend.toNat)

/-- SHR: bit 0 of the original value (R129). -/
def shiftedOutRight (v : Byte) : Bool := v.getLsbD 0

/-- SHL: bit 7 of the original value (R131). -/
def shiftedOutLeft (v : Byte) : Bool := v.getLsbD 7

/-- The sum modulo 256 (R126). -/
def addByte (v u : Byte) : Byte := BitVec.ofNat 8 (v.toNat + u.toNat)

/-- The difference modulo 256: `v + 256 - u` when u > v (R126, R128). -/
def subByte (v u : Byte) : Byte := BitVec.ofNat 8 (v.toNat + 256 - u.toNat)

end Sys2Proof.Machine
end

