-- ==== Sys2Proof/WellFormed.lean ====
section
/-! DEFINITION. Which terms of `Instr` are instructions. The operand widths hold by type; what is left to check is the
one exclusion of the opcode map: SYS is class 0 OTHER THAN 00E0 and 00EE (30_encoding.md R75 row 3, R76). -/

namespace Sys2Proof

/-- `SYS nnn` is not one of the two words of class 0 that belong to CLS and RET (R76). -/
def sysImmOk (nnn : Imm12) : Bool := nnn != 0x0E0#12 && nnn != 0x0EE#12

/-- The well-formed instructions. -/
def Instr.wellFormed : Instr → Bool
  | .sys nnn => sysImmOk nnn
  | .cls => true
  | .ret => true
  | .jp _ => true
  | .call _ => true
  | .seImm _ _ => true
  | .sneImm _ _ => true
  | .seReg _ _ => true
  | .ldImm _ _ => true
  | .addImm _ _ => true
  | .ldReg _ _ => true
  | .orReg _ _ => true
  | .andReg _ _ => true
  | .xorReg _ _ => true
  | .addReg _ _ => true
  | .sub _ _ => true
  | .shr _ _ => true
  | .subn _ _ => true
  | .shl _ _ => true
  | .sneReg _ _ => true
  | .ldI _ => true
  | .jpV0 _ => true
  | .rnd _ _ => true
  | .drw _ _ _ => true
  | .skp _ => true
  | .sknp _ => true
  | .ldVxDT _ => true
  | .ldVxK _ => true
  | .ldDT _ => true
  | .ldST _ => true
  | .addI _ => true
  | .ldF _ => true
  | .ldB _ => true
  | .storeRegs _ => true
  | .loadRegs _ => true

end Sys2Proof
end

