-- ==== Sys2Proof/Decode.lean ====
section
/-! DEFINITION. The decoder, total on any word and any bytes, rejecting by name; after it the encoder, from the same
tables (30_encoding.md R70 to R77). -/

namespace Sys2Proof

/-! ## Fields of the instruction word (R71) -/

/-- `a = w[15:12]`. -/
def fieldA (w : Word) : Nibble := w.extractLsb' 12 4
/-- `x = w[11:8]`. -/
def fieldX (w : Word) : Reg := w.extractLsb' 8 4
/-- `y = w[7:4]`. -/
def fieldY (w : Word) : Reg := w.extractLsb' 4 4
/-- `b = w[3:0]`. -/
def fieldB (w : Word) : Nibble := w.extractLsb' 0 4
/-- `nnn = w[11:0]`. -/
def fieldNNN (w : Word) : Imm12 := w.extractLsb' 0 12
/-- `kk = w[7:0]`. -/
def fieldKK (w : Word) : Byte := w.extractLsb' 0 8

/-! ## Byte order (R70, 20_memory.md R52) -/

/-- The word of two consecutive bytes: the byte at the lower address is the high byte. -/
def wordOfBytes (hi lo : Byte) : Word := hi ++ lo
/-- The byte a word has at its lower address. -/
def highByte (w : Word) : Byte := w.extractLsb' 8 8
/-- The byte a word has at its higher address. -/
def lowByte (w : Word) : Byte := w.extractLsb' 0 8

/-! ## The decoder -/

/-- Why bytes are no instruction. -/
inductive Reject where
  /-- No row of R75 matches the word: the InvalidInstruction of R77. -/
  | noHandler (w : Word)
  /-- Fewer than the two bytes every instruction has (R70). -/
  | truncated
  deriving DecidableEq, Repr

/-- Class 0: CLS and RET are matched before the catch-all SYS (R76). -/
def decodeClass0 (nnn : Imm12) : Instr :=
  if nnn = 0x0E0#12 then .cls else if nnn = 0x0EE#12 then .ret else .sys nnn

/-- Class 8: the register-to-register forms, selected by b (R75 rows 11 to 19). -/
def decodeClass8 (w : Word) : Except Reject Instr :=
  match fieldB w with
  | 0x0#4 => .ok (.ldReg (fieldX w) (fieldY w))
  | 0x1#4 => .ok (.orReg (fieldX w) (fieldY w))
  | 0x2#4 => .ok (.andReg (fieldX w) (fieldY w))
  | 0x3#4 => .ok (.xorReg (fieldX w) (fieldY w))
  | 0x4#4 => .ok (.addReg (fieldX w) (fieldY w))
  | 0x5#4 => .ok (.sub (fieldX w) (fieldY w))
  | 0x6#4 => .ok (.shr (fieldX w) (fieldY w))
  | 0x7#4 => .ok (.subn (fieldX w) (fieldY w))
  | 0xE#4 => .ok (.shl (fieldX w) (fieldY w))
  | _ => .error (.noHandler w)

/-- Class E: the key skips, selected by kk (R75 rows 25, 26). -/
def decodeClassE (w : Word) : Except Reject Instr :=
  match fieldKK w with
  | 0x9E#8 => .ok (.skp (fieldX w))
  | 0xA1#8 => .ok (.sknp (fieldX w))
  | _ => .error (.noHandler w)

/-- Class F, selected by kk (R75 rows 27 to 35). -/
def decodeClassF (w : Word) : Except Reject Instr :=
  match fieldKK w with
  | 0x07#8 => .ok (.ldVxDT (fieldX w))
  | 0x0A#8 => .ok (.ldVxK (fieldX w))
  | 0x15#8 => .ok (.ldDT (fieldX w))
  | 0x18#8 => .ok (.ldST (fieldX w))
  | 0x1E#8 => .ok (.addI (fieldX w))
  | 0x29#8 => .ok (.ldF (fieldX w))
  | 0x33#8 => .ok (.ldB (fieldX w))
  | 0x55#8 => .ok (.storeRegs (fieldX w))
  | 0x65#8 => .ok (.loadRegs (fieldX w))
  | _ => .error (.noHandler w)

/-- `decode` of R76: a total function of the word alone (R92). 5xyN and 9xyN with N not 0 are illegal (R77). -/
def decode (w : Word) : Except Reject Instr :=
  match fieldA w with
  | 0x0#4 => .ok (decodeClass0 (fieldNNN w))
  | 0x1#4 => .ok (.jp (fieldNNN w))
  | 0x2#4 => .ok (.call (fieldNNN w))
  | 0x3#4 => .ok (.seImm (fieldX w) (fieldKK w))
  | 0x4#4 => .ok (.sneImm (fieldX w) (fieldKK w))
  | 0x5#4 => if fieldB w = 0x0#4 then .ok (.seReg (fieldX w) (fieldY w)) else .error (.noHandler w)
  | 0x6#4 => .ok (.ldImm (fieldX w) (fieldKK w))
  | 0x7#4 => .ok (.addImm (fieldX w) (fieldKK w))
  | 0x8#4 => decodeClass8 w
  | 0x9#4 => if fieldB w = 0x0#4 then .ok (.sneReg (fieldX w) (fieldY w)) else .error (.noHandler w)
  | 0xA#4 => .ok (.ldI (fieldNNN w))
  | 0xB#4 => .ok (.jpV0 (fieldNNN w))
  | 0xC#4 => .ok (.rnd (fieldX w) (fieldKK w))
  | 0xD#4 => .ok (.drw (fieldX w) (fieldY w) (fieldB w))
  | 0xE#4 => decodeClassE w
  | _ => decodeClassF w

/-- Decoding at the head of a byte sequence: every instruction takes exactly two bytes (R70). -/
def decodeBytes : List Byte → Except Reject (Instr × List Byte)
  | hi :: lo :: rest =>
    match decode (wordOfBytes hi lo) with
    | .ok i => .ok (i, rest)
    | .error r => .error r
  | _ => .error .truncated

/-- The number of an instruction word as `spec/opcode_table.json` numbers its bits, cut to `nbits`. -/
def tableWord (nbits w : Nat) : Word := BitVec.ofNat 16 (w % 2 ^ nbits)

/-- What this decoder reads from the bytes of a table word, laid out as memory holds them (high byte first). -/
def decodeTableWord (nbits w : Nat) : Option Instr :=
  match decodeBytes [highByte (tableWord nbits w), lowByte (tableWord nbits w)] with
  | .ok (i, _) => some i
  | .error _ => none

/-! ## The encoder (R72, R75) -/

/-- Format NNN. -/
def packNNN (a : Nibble) (nnn : Imm12) : Word := a ++ nnn
/-- Formats XKK and X (where kk is fixed). -/
def packXKK (a : Nibble) (x : Reg) (kk : Byte) : Word := a ++ x ++ kk
/-- Formats XYN and XY (where b is fixed). -/
def packXYN (a : Nibble) (x y : Reg) (b : Nibble) : Word := a ++ x ++ y ++ b

/-- The word of an instruction, from its row of R75. -/
def encode : Instr → Word
  | .cls => 0x00E0#16
  | .ret => 0x00EE#16
  | .sys nnn => packNNN 0x0#4 nnn
  | .jp nnn => packNNN 0x1#4 nnn
  | .call nnn => packNNN 0x2#4 nnn
  | .seImm x kk => packXKK 0x3#4 x kk
  | .sneImm x kk => packXKK 0x4#4 x kk
  | .seReg x y => packXYN 0x5#4 x y 0x0#4
  | .ldImm x kk => packXKK 0x6#4 x kk
  | .addImm x kk => packXKK 0x7#4 x kk
  | .ldReg x y => packXYN 0x8#4 x y 0x0#4
  | .orReg x y => packXYN 0x8#4 x y 0x1#4
  | .andReg x y => packXYN 0x8#4 x y 0x2#4
  | .xorReg x y => packXYN 0x8#4 x y 0x3#4
  | .addReg x y => packXYN 0x8#4 x y 0x4#4
  | .sub x y => packXYN 0x8#4 x y 0x5#4
  | .shr x y => packXYN 0x8#4 x y 0x6#4
  | .subn x y => packXYN 0x8#4 x y 0x7#4
  | .shl x y => packXYN 0x8#4 x y 0xE#4
  | .sneReg x y => packXYN 0x9#4 x y 0x0#4
  | .ldI nnn => packNNN 0xA#4 nnn
  | .jpV0 nnn => packNNN 0xB#4 nnn
  | .rnd x kk => packXKK 0xC#4 x kk
  | .drw x y n => packXYN 0xD#4 x y n
  | .skp x => packXKK 0xE#4 x 0x9E#8
  | .sknp x => packXKK 0xE#4 x 0xA1#8
  | .ldVxDT x => packXKK 0xF#4 x 0x07#8
  | .ldVxK x => packXKK 0xF#4 x 0x0A#8
  | .ldDT x => packXKK 0xF#4 x 0x15#8
  | .ldST x => packXKK 0xF#4 x 0x18#8
  | .addI x => packXKK 0xF#4 x 0x1E#8
  | .ldF x => packXKK 0xF#4 x 0x29#8
  | .ldB x => packXKK 0xF#4 x 0x33#8
  | .storeRegs x => packXKK 0xF#4 x 0x55#8
  | .loadRegs x => packXKK 0xF#4 x 0x65#8

/-- The two bytes of an instruction in the order memory holds them. -/
def encodeBytes (i : Instr) : List Byte := [highByte (encode i), lowByte (encode i)]

end Sys2Proof
end

