-- ==== Sys2Proof/Config.lean ====
section
/-! DEFINITION. What is fixed for this hardware (00_scope.md R8, R9), and the one source of free values: the inputs
the host hands to a tick. -/

namespace Sys2Proof.Config

/-- MEM_SIZE (R8). -/
abbrev memSize : Nat := 4096
/-- FONT_BASE (R8). -/
abbrev fontBase : Nat := 0x000
/-- FONT_GLYPHS x GLYPH_BYTES (R8). -/
abbrev fontSize : Nat := 80
/-- GLYPH_BYTES (R8). -/
abbrev glyphBytes : Nat := 5
/-- PROG_BASE, also the entry point (R8, 20_memory.md R51). -/
abbrev progBase : Nat := 0x200
/-- PROG_MAX (R8). -/
abbrev progMax : Nat := 3584
/-- STACK_DEPTH (R8). -/
abbrev stackDepth : Nat := 16
/-- DISP_W (R8). -/
abbrev dispW : Nat := 64
/-- DISP_H (R8). -/
abbrev dispH : Nat := 32
/-- NUM_KEYS (R8). -/
abbrev numKeys : Nat := 16

/-- Glyphs 0 to 7 of the default FONT (10_state.md R30). -/
def fontLow : List Byte :=
  [0xF0, 0x90, 0x90, 0x90, 0xF0] ++ [0x20, 0x60, 0x20, 0x20, 0x70] ++
  [0xF0, 0x10, 0xF0, 0x80, 0xF0] ++ [0xF0, 0x10, 0xF0, 0x10, 0xF0] ++
  [0x90, 0x90, 0xF0, 0x10, 0x10] ++ [0xF0, 0x80, 0xF0, 0x10, 0xF0] ++
  [0xF0, 0x80, 0xF0, 0x90, 0xF0] ++ [0xF0, 0x10, 0x20, 0x40, 0x40]

/-- Glyphs 8 to F of the default FONT (10_state.md R30). -/
def fontHigh : List Byte :=
  [0xF0, 0x90, 0xF0, 0x90, 0xF0] ++ [0xF0, 0x90, 0xF0, 0x10, 0xF0] ++
  [0xF0, 0x90, 0xF0, 0x90, 0x90] ++ [0xE0, 0x90, 0xE0, 0x90, 0xE0] ++
  [0xF0, 0x80, 0x80, 0x80, 0xF0] ++ [0xE0, 0x90, 0x90, 0x90, 0xE0] ++
  [0xF0, 0x80, 0xF0, 0x80, 0xF0] ++ [0xF0, 0x80, 0xF0, 0x80, 0x80]

/-- The default of the parameter FONT (R9, R30). PRESUMED: the spec takes these bytes from general knowledge (K2);
log entry 5. Another font is an argument of `State.load`, or cells of memory. -/
def font : Vector Byte 80 := ⟨(fontLow ++ fontHigh).toArray, by decide⟩

end Sys2Proof.Config

namespace Sys2Proof

/-- The host's inputs of one tick (30_encoding.md R90), with the one thing the host may do to the CORE between two
ticks (60_exceptions.md R214). -/
structure TickInput where
  /-- `keys[k]` is true when key k is down (10_state.md R27). -/
  keys : Vector Bool 16
  /-- The decrement_timers strobe. -/
  dec : Bool
  /-- The random draw, read by RND only (41_alu.md R134). -/
  rnd : Byte
  /-- The host cleared Dirty after the tick before this one (R214). -/
  clearDirty : Bool
  deriving DecidableEq, Repr, Inhabited

/-- FREE VALUE (log entry 1). The n-th input that the host chooses and the state has not been told beforehand. It has
no body: a claim about a step that draws from it holds whatever the host does (D20, D25). -/
opaque Config.freeInput : Nat → TickInput

end Sys2Proof
end

