-- ==== Sys2Proof/Machine/State.lean ====
section
/-! DEFINITION. The machine's state as plain data (10_state.md), the state after reset (R33), and the reasons a step
can stop (60_exceptions.md R200 to R209). -/

namespace Sys2Proof.Machine

/-- Memory as the cells that differ from what memory holds at reset, addresses strictly rising (`Memory.wf`). -/
abbrev Memory := List Host.Cell

/-- The display buffer: 32 rows of 64 pixels, true = on (R26). -/
abbrev Grid := Vector (Vector Bool 64) 32

/-- The CORE's state (10_state.md, opening tuple), then the model's own three fields that carry the inputs of its
ticks (log entry 1). -/
structure State where
  /-- V0 to VF (R20, R21). -/
  V : Vector Byte 16
  /-- The address register (R22). -/
  I : Word
  /-- The program counter (R23). -/
  pc : Word
  /-- How many stack entries are occupied, 0 to 16 (R24). -/
  SP : Fin 17
  /-- The call stack; entries at SP and above are stale (R24, R32). -/
  Stack : Vector Word 16
  /-- The delay timer (R25). -/
  DT : Byte
  /-- The sound timer (R25). -/
  ST : Byte
  /-- The 4096 bytes of memory (R28). -/
  Mem : Memory
  /-- The display buffer (R26). -/
  Pix : Grid
  /-- The dirty flag (R26, R31). -/
  Dirty : Bool
  /-- A tick has failed (R32, R209). -/
  halted : Bool
  /-- The inputs of the tick about to run (R27, R90). -/
  input : TickInput
  /-- Inputs already settled for the ticks after it, next first. -/
  supplied : List TickInput
  /-- How many inputs were drawn from `Config.freeInput`. -/
  drawn : Nat
  deriving DecidableEq, Repr

/-- The tick errors of R208. Each records what R201 to R206 say, and then `final`: the state the failed tick leaves,
halted, with the timer decrement kept (R209; log entry 4). `exec` and `step` answer one of these exactly where the
spec raises the error, so a stop is the hardware's own. -/
inductive Fault where
  /-- Raised by fetch when pc + 1 > 0xFFF (R201). Safe: the spec's own error. -/
  | pcOutOfBounds (pc : Word) (final : State)
  /-- Raised by decode when no handler matches (R202). Safe: the spec's own error. -/
  | invalidInstruction (w pc : Word) (final : State)
  /-- Raised by DRW, LD B, LD [I] and LD Vx,[I] when the n bytes from base do not fit (R203). Safe. -/
  | memoryBoundsError (pc w base : Word) (n : Nat) (final : State)
  /-- Raised by CALL when SP = 16 (R204). Safe: the spec's own error. -/
  | stackOverflow (pc w : Word) (final : State)
  /-- Raised by RET when SP = 0 (R205). Safe: the spec's own error. -/
  | stackUnderflow (pc w : Word) (final : State)
  /-- Raised by SKP and SKNP when Vx > 15 (R206, D11). Safe: the spec's own error. -/
  | keyIndexOutOfRange (pc w : Word) (vx : Byte) (final : State)
  deriving DecidableEq, Repr

/-- Why the model answers no state and no error. -/
inductive Refusal where
  /-- Raised by `exec` for an instruction that has no meaning yet: none at present. Safe. -/
  | notModelled (mnemonic : String)
  /-- Raised by `step` on a halted CORE: no further tick is defined (R209, R222, U20). Safe. -/
  | coreHalted
  deriving DecidableEq, Repr

/-- The three outcomes over this machine. -/
abbrev Result := Host.Outcome State Fault Refusal

/-- The state after reset (R33, R230) before any program byte is placed (log entry 6). The inputs of the first tick are
the host's free choice like those of every other (R9, R222; log entry 2). -/
def State.reset : State where
  V := Vector.replicate 16 0
  I := 0
  pc := 0x200
  SP := 0
  Stack := Vector.replicate 16 0
  DT := 0
  ST := 0
  Mem := []
  Pix := Vector.replicate 32 (Vector.replicate 64 false)
  Dirty := false
  halted := false
  input := Config.freeInput 0
  supplied := []
  drawn := 1

end Sys2Proof.Machine
end

