-- ==== Sys2Proof/Machine/Ops.lean ====
section
/-! DEFINITION. The named operations every meaning is made of: registers, the call stack, memory, sequencing of pc,
raising an error, and the parts of the tick that surround execution (R11, R90). -/

namespace Sys2Proof.Machine

/-! ## Errors -/

/-- `raise` of R11: the tick ends with the error, nothing of `s` has changed, and the CORE records halted (R209).
There is no trap entry and no return from one (R216). -/
def raise (e : State → Fault) (s : State) : Result := .fault (e { s with halted := true })

/-- The numeric codes of R208, labels only (D24). Code 0 is LoadError's (`LoadError.code`). -/
def Fault.code : Fault → Nat
  | .pcOutOfBounds _ _ => 1
  | .invalidInstruction _ _ _ => 2
  | .memoryBoundsError _ _ _ _ _ => 3
  | .stackOverflow _ _ _ => 4
  | .stackUnderflow _ _ _ => 5
  | .keyIndexOutOfRange _ _ _ _ => 6

/-- The state a failed tick leaves (R209). -/
def Fault.final : Fault → State
  | .pcOutOfBounds _ t => t
  | .invalidInstruction _ _ t => t
  | .memoryBoundsError _ _ _ _ t => t
  | .stackOverflow _ _ t => t
  | .stackUnderflow _ _ t => t
  | .keyIndexOutOfRange _ _ _ t => t

/-! ## Registers (R20 to R23) -/

/-- `V[x]`. -/
def State.reg (s : State) (x : Reg) : Byte := s.V[x.toNat]'x.isLt

/-- `V[x] <- v`. -/
def State.setReg (s : State) (x : Reg) (v : Byte) : State := { s with V := s.V.set x.toNat v x.isLt }

/-- `I <- v`. -/
def State.setI (s : State) (v : Word) : State := { s with I := v }

/-- `pc <- v`: a transfer of control (R94, R108). -/
def State.setPc (s : State) (v : Word) : State := { s with pc := v }

/-- `advance(2)` (R11, R94). -/
def State.advance (s : State) : State := { s with pc := s.pc + 2 }

/-- The skip family: `advance(4)` when the condition holds, else `advance(2)` (R94). -/
def State.skipIf (s : State) (c : Bool) : State := { s with pc := if c then s.pc + 4 else s.pc + 2 }

/-! ## Call stack (R24) -/

/-- Push: write `Stack[SP]`, then count it. None when the stack is full. -/
def State.push (s : State) (v : Word) : Option State :=
  if h : s.SP.val < 16 then
    some { s with Stack := s.Stack.set s.SP.val v h, SP := ⟨s.SP.val + 1, by omega⟩ }
  else none

/-- Pop: uncount, then read `Stack[SP]`. None when the stack is empty. -/
def State.pop (s : State) : Option (Word × State) :=
  if h : 0 < s.SP.val then
    some (s.Stack[s.SP.val - 1]'(by omega), { s with SP := ⟨s.SP.val - 1, by omega⟩ })
  else none

/-! ## Memory (20_memory.md) -/

/-- What an address with no cell reads as: FONT at 0x000-0x04F, zero elsewhere (R51, R33). -/
def resetByte (a : Nat) : Byte := Config.font.toList.getD a 0

/-- `MemRead(a, 1)`. -/
def Memory.read : Memory → Nat → Byte
  | [], a => resetByte a
  | (b, v) :: m, a => if a = b then v else Memory.read m a

/-- Put a byte into the sorted cells; a byte equal to the reset byte has no cell. -/
def Memory.insertCell : Memory → Nat → Byte → Memory
  | [], a, v => if v = resetByte a then [] else [(a, v)]
  | (b, w) :: m, a, v =>
    if a < b then (if v = resetByte a then (b, w) :: m else (a, v) :: (b, w) :: m)
    else if a = b then (if v = resetByte a then m else (a, v) :: m)
    else (b, w) :: Memory.insertCell m a v

/-- `MemWrite(a, 1, v)`. Every rule checks its bounds first (R11, R55), so the last branch is never taken (log
entry 11). -/
def Memory.write (m : Memory) (a : Nat) (v : Byte) : Memory :=
  if a < Config.memSize then Memory.insertCell m a v else m

/-- Byte writes at ascending addresses (R53). -/
def Memory.writeBytes : Memory → Nat → List Byte → Memory
  | m, _, [] => m
  | m, a, v :: vs => Memory.writeBytes (Memory.write m a v) (a + 1) vs

/-- Byte reads at ascending addresses (R53). -/
def Memory.readBytes (m : Memory) (a n : Nat) : List Byte := (List.range n).map fun k => Memory.read m (a + k)

/-- The canonical form: addresses strictly rising and inside memory, and no cell equal to the reset byte. -/
abbrev Memory.wf (m : Memory) : Prop :=
  m.Pairwise (fun c d => c.1 < d.1) ∧ ∀ c ∈ m, c.1 < Config.memSize ∧ c.2 ≠ resetByte c.1

/-- `Mem[a]` of a state. -/
def State.byteAt (s : State) (a : Nat) : Byte := Memory.read s.Mem a

/-! ## The parts of a tick around execution (R90) -/

/-- What the host may do between two ticks: clear Dirty (R214). -/
def State.hostTurn (s : State) : State := { s with Dirty := s.Dirty && !s.input.clearDirty }

/-- One timer's decrement, saturating at 0 (R210). -/
def countDown (v : Byte) : Byte := if v = 0 then 0 else v - 1

/-- Step 1 of the tick (R210). -/
def State.tickTimers (s : State) : State :=
  { s with
    DT := if s.input.dec then countDown s.DT else s.DT
    ST := if s.input.dec then countDown s.ST else s.ST }

/-- Step 2 of the tick: the word at pc, if pc + 1 <= 0xFFF (R91). -/
def State.fetch (s : State) : Option Word :=
  if s.pc.toNat + 1 ≤ 0xFFF then some (wordOfBytes (s.byteAt s.pc.toNat) (s.byteAt (s.pc.toNat + 1))) else none

/-- After a successful tick: the inputs of the next one, settled already or free (log entry 1). -/
def State.nextInput (s : State) : State :=
  match s.supplied with
  | i :: rest => { s with input := i, supplied := rest }
  | [] => { s with input := Config.freeInput s.drawn, drawn := s.drawn + 1 }

end Sys2Proof.Machine
end

