-- ==== Sys2Proof/Machine/Alu.lean ====
section
/-! DEFINITION. ALU and register instructions (41_alu.md). Operands are read from `s`; writes follow in the order the
rules list them (30_encoding.md R93), so the later of two writes to VF stays. -/

namespace Sys2Proof.Machine

/-- LD Vx, kk (R120). -/
def execLdImm (x : Reg) (kk : Byte) (s : State) : Result := .next (s.setReg x kk).advance

/-- ADD Vx, kk: wraps, no flag (R121). -/
def execAddImm (x : Reg) (kk : Byte) (s : State) : Result := .next (s.setReg x (addByte (s.reg x) kk)).advance

/-- LD Vx, Vy (R122). -/
def execLdReg (x y : Reg) (s : State) : Result := .next (s.setReg x (s.reg y)).advance

/-- OR Vx, Vy: no flag effect (R123). -/
def execOr (x y : Reg) (s : State) : Result := .next (s.setReg x (s.reg x ||| s.reg y)).advance

/-- AND Vx, Vy: no flag effect (R124). -/
def execAnd (x y : Reg) (s : State) : Result := .next (s.setReg x (s.reg x &&& s.reg y)).advance

/-- XOR Vx, Vy: no flag effect (R125). -/
def execXor (x y : Reg) (s : State) : Result := .next (s.setReg x (s.reg x ^^^ s.reg y)).advance

/-- ADD Vx, Vy: the sum, then VF = carry (R127, D8). -/
def execAddReg (x y : Reg) (s : State) : Result :=
  .next ((s.setReg x (addByte (s.reg x) (s.reg y))).setReg VF (flagByte (carryOut (s.reg x) (s.reg y)))).advance

/-- SUB Vx, Vy: Vx - Vy, then VF = no borrow (R128, D8). -/
def execSub (x y : Reg) (s : State) : Result :=
  .next ((s.setReg x (subByte (s.reg x) (s.reg y))).setReg VF (flagByte (noBorrow (s.reg x) (s.reg y)))).advance

/-- SUBN Vx, Vy: Vy - Vx, then VF = no borrow (R130, D8). -/
def execSubn (x y : Reg) (s : State) : Result :=
  .next ((s.setReg x (subByte (s.reg y) (s.reg x))).setReg VF (flagByte (noBorrow (s.reg y) (s.reg x)))).advance

/-- SHR Vx: VF = old bit 0, then Vx = the original shifted right (R129, D9). -/
def execShr (x _y : Reg) (s : State) : Result :=
  .next ((s.setReg VF (flagByte (shiftedOutRight (s.reg x)))).setReg x (s.reg x >>> 1)).advance

/-- SHL Vx: VF = old bit 7, then Vx = the original shifted left (R131, D9). -/
def execShl (x _y : Reg) (s : State) : Result :=
  .next ((s.setReg VF (flagByte (shiftedOutLeft (s.reg x)))).setReg x (s.reg x <<< 1)).advance

/-- RND Vx, kk: the tick's random byte and kk (R134, D20). -/
def execRnd (x : Reg) (kk : Byte) (s : State) : Result := .next (s.setReg x (s.input.rnd &&& kk)).advance

end Sys2Proof.Machine
end

