-- ==== Sys2Proof/Machine/Operands.lean ====
section
/-! DEFINITION. The operand forms: immediates and registers come from the syntax (30_encoding.md R73); here are the one
data addressing mode (42_index_and_memory.md R147), the register ranges, and the keypad operands. -/

namespace Sys2Proof.Machine

/-- Byte k of a data access: register-indirect through I, added exactly (R147). -/
def State.dataAddr (s : State) (k : Nat) : Nat := s.I.toNat + k

/-- `InBounds(I, n)` (20_memory.md R55): exact, never wrapping. -/
def State.inBounds (s : State) (n : Nat) : Bool := decide (s.I.toNat + n ≤ Config.memSize)

/-- The registers `V0..Vx` of a register range, in order (R144). -/
def State.regRange (s : State) (x : Reg) : List Byte :=
  (List.range (x.toNat + 1)).map fun k => s.reg (BitVec.ofNat 4 k)

/-- `V[k] <- Mem[I + k]` for the first `n` registers, in order (R145). The bytes are those of `s` itself: no
register write reaches memory or I. -/
def State.loadRange (s : State) : Nat → State
  | 0 => s
  | n + 1 => (s.loadRange n).setReg (BitVec.ofNat 4 n) (s.byteAt (s.dataAddr n))

/-- The three decimal digits of a byte (R143). -/
def bcdDigits (v : Byte) : List Byte :=
  [BitVec.ofNat 8 (v.toNat / 100), BitVec.ofNat 8 (v.toNat / 10 % 10), BitVec.ofNat 8 (v.toNat % 10)]

/-- `Key[k]` of this tick's snapshot (R27). -/
def State.keyDown (s : State) (k : Nibble) : Bool := s.input.keys[k.toNat]'k.isLt

/-- The key a register value names, where it names one (R180, R206). -/
def keyOf (v : Byte) : Option Nibble := if v.toNat ≤ 15 then some (v.setWidth 4) else none

/-- The least key code that is down (R183, D14). -/
def State.lowestKey (s : State) : Option Nibble :=
  ((List.range Config.numKeys).map (BitVec.ofNat 4)).find? s.keyDown

end Sys2Proof.Machine
end

