-- ==== Sys2Proof/Machine/Control.lean ====
section
/-! DEFINITION. Control flow: system no-op, return, jumps, call and the skips (40_control_flow.md). -/

namespace Sys2Proof.Machine

/-- SYS nnn: a no-op that advances pc (R100). -/
def execSys (_nnn : Imm12) (s : State) : Result := .next s.advance

/-- RET: pops into pc; fails when the stack is empty. pc gets the popped value and nothing is added (R101, C2). -/
def execRet (s : State) : Result :=
  match s.pop with
  | some (ra, t) => .next (t.setPc ra)
  | none => raise (.stackUnderflow s.pc (encode .ret)) s

/-- JP nnn (R102). -/
def execJp (nnn : Imm12) (s : State) : Result := .next (s.setPc (zextImm nnn))

/-- CALL nnn: pushes pc + 2, then jumps; fails when the stack is full (R103). -/
def execCall (nnn : Imm12) (s : State) : Result :=
  match s.push (s.pc + 2) with
  | some t => .next (t.setPc (zextImm nnn))
  | none => raise (.stackOverflow s.pc (encode (.call nnn))) s

/-- SE Vx, kk (R104). -/
def execSeImm (x : Reg) (kk : Byte) (s : State) : Result := .next (s.skipIf (s.reg x == kk))

/-- SNE Vx, kk (R105). -/
def execSneImm (x : Reg) (kk : Byte) (s : State) : Result := .next (s.skipIf (s.reg x != kk))

/-- SE Vx, Vy (R106). -/
def execSeReg (x y : Reg) (s : State) : Result := .next (s.skipIf (s.reg x == s.reg y))

/-- SNE Vx, Vy (R107). -/
def execSneReg (x y : Reg) (s : State) : Result := .next (s.skipIf (s.reg x != s.reg y))

/-- JP V0, nnn: the exact sum, at most 0x10FE (R109). -/
def execJpV0 (nnn : Imm12) (s : State) : Result := .next (s.setPc (zextByte (s.reg 0x0#4) + zextImm nnn))

end Sys2Proof.Machine
end

