-- ==== Sys2Proof/Machine/Display.lean ====
section
/-! DEFINITION. The framebuffer and the XOR sprite blitter (43_display.md). -/

namespace Sys2Proof.Machine

/-- A column modulo 64 (R161). -/
def wrapCol (c : Nat) : Fin 64 := ⟨c % 64, Nat.mod_lt _ (by decide)⟩

/-- A row modulo 32 (R161). -/
def wrapRow (r : Nat) : Fin 32 := ⟨r % 32, Nat.mod_lt _ (by decide)⟩

/-- `Pix[r][c]` of a buffer. -/
def Grid.pixel (g : Grid) (r : Fin 32) (c : Fin 64) : Bool := g[r.val][c.val]

/-- `Pix[r][c] <- not Pix[r][c]`. -/
def Grid.invert (g : Grid) (r : Fin 32) (c : Fin 64) : Grid := g.set r.val (g[r.val].set c.val (!g[r.val][c.val]))

/-- The buffer with every pixel off (R160). -/
def Grid.clear : Grid := Vector.replicate 32 (Vector.replicate 64 false)

/-- Bit j of a sprite byte counted from the left: `s[7-j]` (R161). -/
def spriteBit (s : Byte) (j : Nat) : Bool := s.getLsbD (7 - j)

/-- One sprite bit at row r, column cx + j: inverts the pixel when it is 1, and records a pixel that was on (R161). -/
def blitBit (cx : Nat) (r : Fin 32) (s : Byte) (acc : Grid × Bool) (j : Nat) : Grid × Bool :=
  if spriteBit s j then
    (Grid.invert acc.1 r (wrapCol (cx + j)), acc.2 || Grid.pixel acc.1 r (wrapCol (cx + j)))
  else acc

/-- One sprite byte: its 8 bits in order (R161). -/
def blitRow (cx : Nat) (r : Fin 32) (s : Byte) (acc : Grid × Bool) : Grid × Bool :=
  (List.range 8).foldl (blitBit cx r s) acc

/-- The rows of a sprite from row cy down, one byte each, with the collision so far (R162). -/
def blitRows (cx : Nat) : Nat → List Byte → Grid × Bool → Grid × Bool
  | _, [], acc => acc
  | cy, s :: ss, acc => blitRows cx (cy + 1) ss (blitRow cx (wrapRow cy) s acc)

/-- `Pix[r][c]` of a state. -/
def State.pixel (s : State) (r : Fin 32) (c : Fin 64) : Bool := Grid.pixel s.Pix r c

/-- CLS (R160). -/
def execCls (s : State) : Result := .next { s with Pix := Grid.clear, Dirty := true }.advance

/-- DRW Vx, Vy, n: blit the n bytes at I at (Vx, Vy); VF = collision; Dirty is set whatever changed (R162, C3). -/
def execDrw (x y : Reg) (n : Nibble) (s : State) : Result :=
  if s.inBounds n.toNat then
    let drawn := blitRows (s.reg x).toNat (s.reg y).toNat (Memory.readBytes s.Mem (s.dataAddr 0) n.toNat) (s.Pix, false)
    .next ({ s with Pix := drawn.1, Dirty := true }.setReg VF (flagByte drawn.2)).advance
  else raise (.memoryBoundsError s.pc (encode (.drw x y n)) s.I n.toNat) s

end Sys2Proof.Machine
end

