-- ==== Sys2Proof/Machine/Index.lean ====
section
/-! DEFINITION. The address register and memory transfers (42_index_and_memory.md). Bounds are checked before the
first write, and I stays (R147, D13). -/

namespace Sys2Proof.Machine

/-- LD I, nnn (R140). -/
def execLdI (nnn : Imm12) (s : State) : Result := .next (s.setI (zextImm nnn)).advance

/-- ADD I, Vx: modulo 65536, no flag (R141). -/
def execAddI (x : Reg) (s : State) : Result :=
  .next (s.setI (BitVec.ofNat 16 (s.I.toNat + (s.reg x).toNat))).advance

/-- LD F, Vx: 5 times the whole byte, unmasked (R142, D12). -/
def execLdF (x : Reg) (s : State) : Result :=
  .next (s.setI (BitVec.ofNat 16 (Config.glyphBytes * (s.reg x).toNat))).advance

/-- The end of a storing instruction: its bytes at I, I+1, ..., after the bounds check (R143, R144). -/
def storeAtI (i : Instr) (vs : List Byte) (s : State) : Result :=
  if s.inBounds vs.length then .next { s with Mem := Memory.writeBytes s.Mem (s.dataAddr 0) vs }.advance
  else raise (.memoryBoundsError s.pc (encode i) s.I vs.length) s

/-- LD B, Vx (R143). -/
def execLdB (x : Reg) (s : State) : Result := storeAtI (.ldB x) (bcdDigits (s.reg x)) s

/-- LD [I], Vx (R144). -/
def execStoreRegs (x : Reg) (s : State) : Result := storeAtI (.storeRegs x) (s.regRange x) s

/-- LD Vx, [I] (R145). -/
def execLoadRegs (x : Reg) (s : State) : Result :=
  if s.inBounds (x.toNat + 1) then .next (s.loadRange (x.toNat + 1)).advance
  else raise (.memoryBoundsError s.pc (encode (.loadRegs x)) s.I (x.toNat + 1)) s

end Sys2Proof.Machine
end

