-- ==== Sys2Proof/Machine/KeysTimers.lean ====
section
/-! DEFINITION. Keypad and timer instructions (44_timers_and_keys.md). The state they read is the one after the tick's
timer decrement (R90). -/

namespace Sys2Proof.Machine

/-- SKP Vx: skip if the key is down (R180). -/
def execSkp (x : Reg) (s : State) : Result :=
  match keyOf (s.reg x) with
  | some k => .next (s.skipIf (s.keyDown k))
  | none => raise (.keyIndexOutOfRange s.pc (encode (.skp x)) (s.reg x)) s

/-- SKNP Vx: skip if the key is up (R181). -/
def execSknp (x : Reg) (s : State) : Result :=
  match keyOf (s.reg x) with
  | some k => .next (s.skipIf (!s.keyDown k))
  | none => raise (.keyIndexOutOfRange s.pc (encode (.sknp x)) (s.reg x)) s

/-- LD Vx, DT (R182). -/
def execLdVxDT (x : Reg) (s : State) : Result := .next (s.setReg x s.DT).advance

/-- LD Vx, K: the lowest key that is down, or no write and pc unchanged; it completes either way (R183, D14). -/
def execLdVxK (x : Reg) (s : State) : Result :=
  .next (match s.lowestKey with
    | some k => (s.setReg x (k.setWidth 8)).advance
    | none => s)

/-- LD DT, Vx (R184). -/
def execLdDT (x : Reg) (s : State) : Result := .next { s with DT := s.reg x }.advance

/-- LD ST, Vx (R185). -/
def execLdST (x : Reg) (s : State) : Result := .next { s with ST := s.reg x }.advance

end Sys2Proof.Machine
end

