-- ==== Sys2Proof/Machine/Tick.lean ====
section
/-! DEFINITION. The tick (30_encoding.md R90) and the step made of it. -/

namespace Sys2Proof.Machine

/-- After execution: a next state gets the inputs of the next tick, a stop stays as it is. -/
def afterExec : Result → Result
  | .next t => .next t.nextInput
  | .fault f => .fault f
  | .refused r => .refused r

/-- Steps 2 to 4 of the tick, on the state after step 1: fetch, decode, execute, in this order of checks (R90,
R215). -/
def fetchDecodeExecute (s : State) : Result :=
  match s.fetch with
  | none => raise (.pcOutOfBounds s.pc) s
  | some w =>
    match decode w with
    | .error _ => raise (.invalidInstruction w s.pc) s
    | .ok i => afterExec (exec i s)

/-- One step: a halted CORE has none (R209); else the host's turn (R214), then the tick: timers first (R210). -/
def runTick (s : State) : Result :=
  if s.halted then .refused .coreHalted else fetchDecodeExecute s.hostTurn.tickTimers

/-- A table word stored as the two bytes at pc (R52). -/
def State.placeWord (s : State) (w : Word) : State :=
  { s with Mem := Memory.writeBytes s.Mem s.pc.toNat [highByte w, lowByte w] }

end Sys2Proof.Machine
end

