-- ==== Sys2Proof/Machine/Step.lean ====
section
/-! DEFINITION. The machine's one step, and a word placed where it fetches next. -/

namespace Sys2Proof.Machine

/-- One step of the machine: the host's turn and one tick (R90, R95, R214). -/
def step (s : State) : Host.Outcome State Fault Refusal := runTick s

/-- `s` with the instruction of a table word at pc, so that the next step runs it (log entry 6). It stands for a
program load of that word (70_reset_and_hazards.md R230). -/
def State.withFetchWord (s : State) (nbits w : Nat) : State := s.placeWord (tableWord nbits w)

end Sys2Proof.Machine
end

