-- ==== Sys2Proof/Machine/Load.lean ====
section
/-! DEFINITION. Program load, the CORE's only reset (70_reset_and_hazards.md R230 to R232). -/

namespace Sys2Proof.Machine

/-- The result of a failed load; no state exists after it (60_exceptions.md R207). -/
inductive LoadError where
  /-- The image has no byte. -/
  | empty
  /-- The image is longer than PROG_MAX. -/
  | tooLarge (len : Nat)
  deriving DecidableEq, Repr

/-- The code of R208. -/
def LoadError.code : LoadError → Nat := fun _ => 0

/-- Memory after load: FONT at 0x000, the image byte by byte at 0x200, zero elsewhere (R230). -/
def loadMemory (font : Vector Byte 80) (image : List Byte) : Memory :=
  Memory.writeBytes (Memory.writeBytes [] Config.fontBase font.toList) Config.progBase image

/-- `load(bytes)` for a given FONT (R9, R230). -/
def State.load (font : Vector Byte 80) (image : List Byte) : Except LoadError State :=
  if image.length = 0 then .error .empty
  else if image.length > Config.progMax then .error (.tooLarge image.length)
  else .ok { State.reset with Mem := loadMemory font image }

end Sys2Proof.Machine
end

