-- ==== Sys2Proof/Safety.lean ====
section
/-! DEFINITION. The terms claims are stated in: what a step leaves alone, which check an instruction has, what it may
write, where pc goes, and the invariant of reachable states (10_state.md R34). None of this is used by the machine. -/

namespace Sys2Proof.Machine

/-! ## What stays the same from `s` to `t` -/

/-- Every general register but those listed. -/
def SameRegsBut (rs : List Reg) (s t : State) : Prop := ∀ r, r ∉ rs → t.reg r = s.reg r

/-- SP and every stack entry, stale ones too. -/
def SameStack (s t : State) : Prop := t.SP = s.SP ∧ t.Stack = s.Stack

/-- Both timers. -/
def SameTimers (s t : State) : Prop := t.DT = s.DT ∧ t.ST = s.ST

/-- Every byte of memory, through the read of one byte. -/
def SameMemory (s t : State) : Prop := ∀ a, t.byteAt a = s.byteAt a

/-- Every pixel, and Dirty. -/
def SameDisplay (s t : State) : Prop := (∀ r c, t.pixel r c = s.pixel r c) ∧ t.Dirty = s.Dirty

/-- The halted record and the inputs, this tick's and the later ones'. -/
def SameHost (s t : State) : Prop :=
  t.halted = s.halted ∧ t.input = s.input ∧ t.supplied = s.supplied ∧ t.drawn = s.drawn

/-- Everything but the general registers and pc. -/
def OnlyRegsAndPc (s t : State) : Prop :=
  t.I = s.I ∧ SameStack s t ∧ SameTimers s t ∧ SameMemory s t ∧ SameDisplay s t ∧ SameHost s t

/-- Everything but I and pc. -/
def OnlyIAndPc (s t : State) : Prop :=
  SameRegsBut [] s t ∧ SameStack s t ∧ SameTimers s t ∧ SameMemory s t ∧ SameDisplay s t ∧ SameHost s t

/-- Everything but memory and pc. -/
def OnlyMemAndPc (s t : State) : Prop :=
  SameRegsBut [] s t ∧ t.I = s.I ∧ SameStack s t ∧ SameTimers s t ∧ SameDisplay s t ∧ SameHost s t

/-- Everything but SP, the stack and pc. -/
def OnlyStackAndPc (s t : State) : Prop :=
  SameRegsBut [] s t ∧ t.I = s.I ∧ SameTimers s t ∧ SameMemory s t ∧ SameDisplay s t ∧ SameHost s t

/-- Everything but pc. -/
def OnlyPc (s t : State) : Prop := SameRegsBut [] s t ∧ OnlyRegsAndPc s t

/-! ## What an instruction may do -/

/-- The instruction's own check, the only one it has (60_exceptions.md R215). -/
def checkOk (s : State) : Instr → Bool
  | .call _ => decide (s.SP.val < 16)
  | .ret => decide (0 < s.SP.val)
  | .drw _ _ n => decide (s.I.toNat + n.toNat ≤ 4096)
  | .ldB _ => decide (s.I.toNat + 3 ≤ 4096)
  | .storeRegs x => decide (s.I.toNat + (x.toNat + 1) ≤ 4096)
  | .loadRegs x => decide (s.I.toNat + (x.toNat + 1) ≤ 4096)
  | .skp x => decide ((s.reg x).toNat ≤ 15)
  | .sknp x => decide ((s.reg x).toNat ≤ 15)
  | _ => true

/-- The error of an instruction whose check fails: the kind, and what R203 to R206 say it records, (pc, w) being the
instruction's address and word. `s` left as it was, but halted, is the final state (R209). -/
def ownError (s : State) (w : Word) : Instr → Option Fault
  | .call _ => some (.stackOverflow s.pc w { s with halted := true })
  | .ret => some (.stackUnderflow s.pc w { s with halted := true })
  | .drw _ _ n => some (.memoryBoundsError s.pc w s.I n.toNat { s with halted := true })
  | .ldB _ => some (.memoryBoundsError s.pc w s.I 3 { s with halted := true })
  | .storeRegs x => some (.memoryBoundsError s.pc w s.I (x.toNat + 1) { s with halted := true })
  | .loadRegs x => some (.memoryBoundsError s.pc w s.I (x.toNat + 1) { s with halted := true })
  | .skp x => some (.keyIndexOutOfRange s.pc w (s.reg x) { s with halted := true })
  | .sknp x => some (.keyIndexOutOfRange s.pc w (s.reg x) { s with halted := true })
  | _ => none

/-- The general registers an instruction may write (10_state.md R21): its destination, VF for the six that write it
as a flag, V0..Vx for LD Vx,[I]. -/
def writesReg : Instr → Reg → Bool
  | .ldImm x _, r => r == x
  | .addImm x _, r => r == x
  | .ldReg x _, r => r == x
  | .orReg x _, r => r == x
  | .andReg x _, r => r == x
  | .xorReg x _, r => r == x
  | .addReg x _, r => r == x || r == VF
  | .sub x _, r => r == x || r == VF
  | .subn x _, r => r == x || r == VF
  | .shr x _, r => r == x || r == VF
  | .shl x _, r => r == x || r == VF
  | .rnd x _, r => r == x
  | .drw _ _ _, r => r == VF
  | .ldVxDT x, r => r == x
  | .ldVxK x, r => r == x
  | .loadRegs x, r => decide (r.toNat ≤ x.toNat)
  | _, _ => false

/-- The three instructions that write I (10_state.md R22). -/
def writesI : Instr → Bool
  | .ldI _ => true
  | .addI _ => true
  | .ldF _ => true
  | _ => false

/-- The one instruction that writes ST (10_state.md R25). -/
def writesST : Instr → Bool
  | .ldST _ => true
  | _ => false

/-- The two instructions that write the display (10_state.md R26). -/
def writesDisplay : Instr → Bool
  | .cls => true
  | .drw _ _ _ => true
  | _ => false

/-- How many bytes at I an instruction stores (20_memory.md R50, R53). -/
def storedBytes : Instr → Nat
  | .ldB _ => 3
  | .storeRegs x => x.toNat + 1
  | _ => 0

/-- The byte k places after I that an instruction stores, as a number (42_index_and_memory.md R143, R144). -/
def storedByte (s : State) (i : Instr) (k : Nat) : Nat :=
  match i, k with
  | .ldB x, 0 => (s.reg x).toNat / 100
  | .ldB x, 1 => (s.reg x).toNat / 10 % 10
  | .ldB x, _ => (s.reg x).toNat % 10
  | _, k => (s.reg (BitVec.ofNat 4 k)).toNat

/-- What the byte at an address is once the instruction has stored: its stored byte there, else the byte as it was. -/
def byteAfter (s : State) (i : Instr) (a : Nat) : Nat :=
  if s.I.toNat ≤ a ∧ a < s.I.toNat + storedBytes i then storedByte s i (a - s.I.toNat) else (s.byteAt a).toNat

/-- The same error, with the same record, and another final state. -/
def Fault.withFinal : Fault → State → Fault
  | .pcOutOfBounds pc _, t => .pcOutOfBounds pc t
  | .invalidInstruction w pc _, t => .invalidInstruction w pc t
  | .memoryBoundsError pc w base n _, t => .memoryBoundsError pc w base n t
  | .stackOverflow pc w _, t => .stackOverflow pc w t
  | .stackUnderflow pc w _, t => .stackUnderflow pc w t
  | .keyIndexOutOfRange pc w vx _, t => .keyIndexOutOfRange pc w vx t

/-- The skip family with its condition (30_encoding.md R94, R104 to R107, R180, R181). -/
def skipCondition (s : State) : Instr → Option Bool
  | .seImm x kk => some (s.reg x == kk)
  | .sneImm x kk => some (s.reg x != kk)
  | .seReg x y => some (s.reg x == s.reg y)
  | .sneReg x y => some (s.reg x != s.reg y)
  | .skp x => some (s.input.keys[(s.reg x).toNat]?.getD false)
  | .sknp x => some (!s.input.keys[(s.reg x).toNat]?.getD false)
  | _ => none

/-- No key of the tick's snapshot is down. -/
def noKeyDown (s : State) : Bool := decide (∀ k : Fin 16, s.input.keys[k.val] = false)

/-- Where pc goes when the instruction completes (30_encoding.md R94). -/
def pcAfter (s : State) (i : Instr) : Nat :=
  match i with
  | .ret => ((s.Stack[s.SP.val - 1]?).getD 0).toNat
  | .jp nnn => nnn.toNat
  | .call nnn => nnn.toNat
  | .jpV0 nnn => (s.reg 0x0#4).toNat + nnn.toNat
  | .ldVxK _ => if noKeyDown s then s.pc.toNat else s.pc.toNat + 2
  | i => if skipCondition s i = some true then s.pc.toNat + 4 else s.pc.toNat + 2

/-- Pixel (r, c) is under a 1 bit of the n-byte sprite at I placed at (cx, cy), wrapping (43_display.md R161). -/
def spriteCovers (s : State) (cx cy n : Nat) (r : Fin 32) (c : Fin 64) : Prop :=
  ∃ k, k < n ∧ ∃ j, j < 8 ∧ r.val = (cy + k) % 32 ∧ c.val = (cx + j) % 64 ∧
    (s.byteAt (s.I.toNat + k)).getLsbD (7 - j) = true

/-- The instruction at pc, if one can be fetched and decoded. -/
def State.instrAtPc (s : State) : Option Instr :=
  match s.fetch with
  | none => none
  | some w => match decode w with
    | .ok i => some i
    | .error _ => none

/-- A word is illegal by the table of 30_encoding.md R77. -/
def illegalByTable (w : Word) : Bool :=
  (fieldA w == 0x5#4 && fieldB w != 0x0#4) ||
  (fieldA w == 0x8#4 && ([0x8#4, 0x9#4, 0xA#4, 0xB#4, 0xC#4, 0xD#4, 0xF#4] : List Nibble).contains (fieldB w)) ||
  (fieldA w == 0x9#4 && fieldB w != 0x0#4) ||
  (fieldA w == 0xE#4 && !([0x9E#8, 0xA1#8] : List Byte).contains (fieldKK w)) ||
  (fieldA w == 0xF#4 && !([0x07#8, 0x0A#8, 0x15#8, 0x18#8, 0x1E#8, 0x29#8, 0x33#8, 0x55#8, 0x65#8] : List Byte).contains
    (fieldKK w))

/-! ## Safe runs -/

/-- The step goes on: no error and no refusal. -/
def StepSafe (s : State) : Prop := ∃ t, step s = .next t

/-- `n` steps all go on. -/
def RunSafe : Nat → State → Prop
  | 0, _ => True
  | n + 1, s => ∃ t, step s = .next t ∧ RunSafe n t

/-- What every reachable running state keeps (10_state.md R34; the widths and SP <= 16 hold by type): memory in its
canonical form, pc at most 0x10FE, every stack entry at most 0x1000, and not halted. -/
structure Inv (s : State) : Prop where
  mem : Memory.wf s.Mem
  pc : s.pc.toNat ≤ 0x10FE
  stack : ∀ k : Fin 16, (s.Stack[k.val]).toNat ≤ 0x1000
  running : s.halted = false

end Sys2Proof.Machine
end

