-- ==== Sys2Proof/Certificates/Slice0/Obligations.lean ====
section
/-! DEFINITION. The statements for the provers. Each docstring names the rule of spec/ it comes from; where a clause rests
on the spec's own decision (D<n>) or on an entry of the model's log, it says so. -/

open Sys2Proof Sys2Proof.Machine

/-! ## Encoding -/

/-- Decoding the word of a well-formed instruction gives it back, every operand at every value (R71 to R76; the patterns
are those of R75, which the spec supplies by D2). -/
def Obligations.DecodeOfEncode : Prop :=
  ∀ i : Instr, i.wellFormed = true → decode (encode i) = .ok i ∧
    decodeBytes (encodeBytes i) = .ok (i, [])

/-- A word that decodes is the word of what it decodes to, and that is well formed: one meaning a word (R76, D2). -/
def Obligations.EncodeOfDecode : Prop :=
  ∀ (w : Word) (i : Instr), decode w = .ok i → i.wellFormed = true ∧ encode i = w

/-- The illegal words are exactly those of the table of R77 (its set follows from D2 and D10). -/
def Obligations.IllegalWordsAreTheTables : Prop :=
  ∀ w : Word, (∃ r, decode w = .error r) ↔ illegalByTable w = true

/-- Words written out from the spec's encodings and vectors (R75, R120, R121, 95_test_vectors.md). -/
def Obligations.SpecWordsDecode : Prop :=
  decode 0x6005#16 = .ok (.ldImm 0x0#4 0x05#8) ∧ decode 0x7001#16 = .ok (.addImm 0x0#4 0x01#8) ∧
  decode 0x00E0#16 = .ok .cls ∧ decode 0x00EE#16 = .ok .ret ∧ decode 0x00E1#16 = .ok (.sys 0x0E1#12) ∧
  decode 0x2300#16 = .ok (.call 0x300#12) ∧ decode 0x8124#16 = .ok (.addReg 0x1#4 0x2#4) ∧
  decode 0xD012#16 = .ok (.drw 0x0#4 0x1#4 0x2#4) ∧ decode 0xE59E#16 = .ok (.skp 0x5#4) ∧
  decode 0xFA33#16 = .ok (.ldB 0xA#4) ∧ decode 0x5121#16 = .error (.noHandler 0x5121#16)

/-! ## Fetch and the tick -/

/-- R91 and R201: the fetch condition, the big-endian word, and the error when it fails. -/
def Obligations.FetchWordOrPcOutOfBounds : Prop :=
  ∀ s : State,
    (s.pc.toNat + 1 ≤ 0xFFF → ∃ w, s.fetch = some w ∧
      w.toNat = (s.byteAt s.pc.toNat).toNat * 256 + (s.byteAt (s.pc.toNat + 1)).toNat) ∧
    (0xFFF < s.pc.toNat + 1 → s.fetch = none ∧
      (s.halted = false → ∃ final, step s = .fault (.pcOutOfBounds s.pc final))) ∧
    ∀ p final, step s = .fault (.pcOutOfBounds p final) → p = s.pc ∧ 0xFFF < s.pc.toNat + 1

/-- R202: a word no handler matches raises InvalidInstruction with the word and pc, and nothing else raises it. -/
def Obligations.IllegalWordRaisesInvalidInstruction : Prop :=
  ∀ (s : State) (w : Word), s.halted = false →
    (s.fetch = some w → (∃ r, decode w = .error r) → ∃ final, step s = .fault (.invalidInstruction w s.pc final)) ∧
    ∀ p final, step s = .fault (.invalidInstruction w p final) →
      p = s.pc ∧ s.fetch = some w ∧ ∃ r, decode w = .error r

/-- R90, R95: when the bytes at pc decode to i, the tick is exec of i on the state after the timer decrement. What the
step adds is the model's: the host's turn, which may clear Dirty (R214), comes first (log entry 3), and a next state gets
the next tick's inputs (log entry 1). An error of exec is the step's error. -/
def Obligations.StepRunsDecodedInstruction : Prop :=
  ∀ (s : State) (i : Instr), s.halted = false → s.pc.toNat + 1 ≤ 0xFFF →
    decode (wordOfBytes (s.byteAt s.pc.toNat) (s.byteAt (s.pc.toNat + 1))) = .ok i →
    (∀ u, exec i s.hostTurn.tickTimers = .next u → step s = .next u.nextInput) ∧
    ∀ f, exec i s.hostTurn.tickTimers = .fault f → step s = .fault f

/-- R209 with the spec's D17 and D21 (log entry 4): a failed tick leaves everything but the timer decrement, and the
CORE halted. The step also holds the host's turn before that tick, which may have cleared Dirty (R214; the model's
convention, log entry 3). -/
def Obligations.FailedTickIsAtomic : Prop :=
  ∀ (s : State) (f : Fault), step s = .fault f → f.final = { s.hostTurn.tickTimers with halted := true }

/-- R209, R222 with the spec's D21: the only refusal is of a halted CORE, and the state a failed tick leaves is one. -/
def Obligations.OnlyAHaltedCoreIsRefused : Prop :=
  (∀ (s : State) (r : Refusal), step s = .refused r ↔ s.halted = true ∧ r = .coreHalted) ∧
  ∀ (s : State) (f : Fault), step s = .fault f → step f.final = .refused .coreHalted

/-- R215: a step goes on exactly when the CORE is not halted, the fetch and the decode succeed, and the instruction's
one own check holds (D11, D15, D18 are the spec's). -/
def Obligations.StepGoesOnIffEveryCheckHolds : Prop :=
  ∀ s : State, StepSafe s ↔ s.halted = false ∧ ∃ i, s.instrAtPc = some i ∧ checkOk s i = true

/-- R210: both timers decrement, saturating, before execution, once a tick, in a waiting and in a failed tick too; LD DT
and LD ST then overwrite (R184, R185), and LD Vx,DT reads what the decrement left (R182). That a failed tick keeps the
decrement is the spec's D17, and where its state stands is log entry 4. -/
def Obligations.TimersCountDownBeforeExecution : Prop :=
  ∀ s : State,
    (∀ t, step s = .next t →
      ((∀ x, s.instrAtPc ≠ some (.ldDT x)) → t.DT.toNat = if s.input.dec then s.DT.toNat - 1 else s.DT.toNat) ∧
      ((∀ x, s.instrAtPc ≠ some (.ldST x)) → t.ST.toNat = if s.input.dec then s.ST.toNat - 1 else s.ST.toNat) ∧
      (∀ x, s.instrAtPc = some (.ldDT x) → t.DT = s.reg x) ∧
      (∀ x, s.instrAtPc = some (.ldST x) → t.ST = s.reg x) ∧
      ∀ x, s.instrAtPc = some (.ldVxDT x) → (t.reg x).toNat = if s.input.dec then s.DT.toNat - 1 else s.DT.toNat) ∧
    ∀ f, step s = .fault f →
      f.final.DT.toNat = (if s.input.dec then s.DT.toNat - 1 else s.DT.toNat) ∧
      f.final.ST.toNat = if s.input.dec then s.ST.toNat - 1 else s.ST.toNat

/-- R214 (which the spec marks derived): Dirty after a tick is true when the tick was a CLS or DRW, and else stays unless
the host cleared it before the tick. -/
def Obligations.DirtyStaysUntilTheHostClearsIt : Prop :=
  ∀ s t : State, step s = .next t →
    (t.Dirty = true ↔ (∃ i, s.instrAtPc = some i ∧ writesDisplay i = true) ∨
      (s.Dirty = true ∧ s.input.clearDirty = false))

/-- The model's own convention (log entry 1; D20, D25 are the spec's): after a tick the next inputs are those the host has
settled, in order, and beyond them free ones. -/
def Obligations.NextInputIsSuppliedOrFree : Prop :=
  ∀ s t : State, step s = .next t →
    (∀ i rest, s.supplied = i :: rest → t.input = i ∧ t.supplied = rest ∧ t.drawn = s.drawn) ∧
    (s.supplied = [] → t.input = Config.freeInput s.drawn ∧ t.supplied = [] ∧ t.drawn = s.drawn + 1)

/-- The model's own convention (log entry 6): a word placed at pc is the word the next step fetches, and nothing outside
its two bytes changes. -/
def Obligations.PlacedWordIsFetched : Prop :=
  ∀ (s : State) (w : Nat), Memory.wf s.Mem → s.pc.toNat + 1 ≤ 0xFFF → w < 65536 →
    (s.withFetchWord 16 w).fetch = some (BitVec.ofNat 16 w) ∧
    (∀ a, a ≠ s.pc.toNat → a ≠ s.pc.toNat + 1 → (s.withFetchWord 16 w).byteAt a = s.byteAt a) ∧
    (s.withFetchWord 16 w).pc = s.pc ∧ OnlyMemAndPc s (s.withFetchWord 16 w)

/-! ## Every instruction: completion, errors, and what is left alone -/

/-- R215, R217: every instruction completes exactly when its own check holds, and none is refused. -/
def Obligations.EveryInstructionCompletesIffItsCheckHolds : Prop :=
  ∀ (i : Instr) (s : State), ((∃ t, exec i s = .next t) ↔ checkOk s i = true) ∧ ∀ r, exec i s ≠ .refused r

/-- R203 to R206: an instruction's error is its one own error, recording its pc and its word, with nothing changed but
halted (D11, D21, D23 are the spec's). -/
def Obligations.EveryErrorIsTheInstructionsOwn : Prop :=
  ∀ (i : Instr) (s : State) (f : Fault),
    exec i s = .fault f ↔ checkOk s i = false ∧ ownError s (encode i) i = some f

/-- R94: where pc goes, for every instruction, exactly (no wrap, since pc <= 0xFFE after the fetch); an error leaves it. -/
def Obligations.PcSequencing : Prop :=
  ∀ (i : Instr) (s : State), s.pc.toNat ≤ 0xFFE →
    (∀ t, exec i s = .next t → t.pc.toNat = pcAfter s i) ∧
    (∀ t b, exec i s = .next t → skipCondition s i = some b → t.pc.toNat ≤ 0x1002) ∧
    ∀ f, exec i s = .fault f → f.final.pc = s.pc

/-- R21: a general register changes only as an instruction's destination, or VF as the flag of the six that define it. -/
def Obligations.OnlyDestinationsAndFlagsChange : Prop :=
  ∀ (i : Instr) (s t : State) (r : Reg), exec i s = .next t → writesReg i r = false → t.reg r = s.reg r

/-- R22, R147: only LD I, ADD I and LD F change I; no data access does (D13). -/
def Obligations.OnlyThreeInstructionsWriteI : Prop :=
  ∀ (i : Instr) (s t : State), exec i s = .next t → writesI i = false → t.I = s.I

/-- R24: only CALL and RET move SP, only CALL writes a stack entry, and only the one at SP. -/
def Obligations.OnlyCallAndRetUseTheStack : Prop :=
  ∀ (i : Instr) (s t : State), exec i s = .next t →
    ((∀ n, i ≠ .call n) → t.Stack = s.Stack ∧ (i ≠ .ret → t.SP = s.SP)) ∧
    ∀ k : Fin 16, k.val ≠ s.SP.val → t.Stack[k.val] = s.Stack[k.val]

/-- R26, R31, R214: only CLS and DRW write a pixel or Dirty, and no instruction clears Dirty. -/
def Obligations.OnlyClsAndDrwWriteTheDisplay : Prop :=
  ∀ (i : Instr) (s t : State), exec i s = .next t →
    (writesDisplay i = false → SameDisplay s t) ∧ (writesDisplay i = true → t.Dirty = true)

/-- R50, R53: only LD B and LD [I],Vx store, and only to their own bytes at I. -/
def Obligations.OnlyTwoInstructionsStore : Prop :=
  ∀ (i : Instr) (s t : State), exec i s = .next t →
    ∀ a, (∀ k, k < storedBytes i → a ≠ s.dataAddr k) → t.byteAt a = s.byteAt a

/-- R25, R27: DT changes only by LD DT and ST only by LD ST; the snapshot, the host's other inputs and the halted record
are the same throughout an instruction. -/
def Obligations.TimersAndInputsAreKept : Prop :=
  ∀ (i : Instr) (s t : State), exec i s = .next t →
    ((∀ x, i ≠ .ldDT x) → t.DT = s.DT) ∧ ((∀ x, i ≠ .ldST x) → t.ST = s.ST) ∧ SameHost s t

/-- R25 and R31: no instruction reads ST, and none reads Dirty. With other values there, every instruction does the same
to the rest of the state; ST stays as given unless LD ST writes it, to the same value, and Dirty stays as given unless CLS
or DRW sets it (D19); an error is the same one with the same record, and leaves them as given. -/
def Obligations.StAndDirtyAreNeverRead : Prop :=
  ∀ (i : Instr) (s : State) (st : Byte) (d : Bool),
    (∀ t, exec i s = .next t → exec i { s with ST := st, Dirty := d } = .next { t with
      ST := if writesST i then t.ST else st
      Dirty := if writesDisplay i then true else d }) ∧
    ∀ f, exec i s = .fault f →
      exec i { s with ST := st, Dirty := d } = .fault (f.withFinal { f.final with ST := st, Dirty := d })

/-! ## Control flow -/

/-- R100: every word of class 0 but 00E0 and 00EE is SYS, which advances pc without effect. -/
def Obligations.SysIsANoOp : Prop :=
  ∀ nnn : Imm12, nnn ≠ 0x0E0#12 → nnn ≠ 0x0EE#12 →
    decode (packNNN 0x0#4 nnn) = .ok (.sys nnn) ∧
    ∀ s : State, ∃ t, exec (.sys nnn) s = .next t ∧ t.pc = s.pc + 2 ∧ OnlyPc s t

/-- R102, R109: JP goes to nnn, JP V0 to the exact sum V0 + nnn; nothing else changes. -/
def Obligations.JumpsSetPcOnly : Prop :=
  ∀ (nnn : Imm12) (s : State),
    (∃ t, exec (.jp nnn) s = .next t ∧ t.pc.toNat = nnn.toNat ∧ OnlyPc s t) ∧
    ∃ t, exec (.jpV0 nnn) s = .next t ∧ t.pc.toNat = (s.reg 0x0#4).toNat + nnn.toNat ∧ OnlyPc s t

/-- R103, R204: CALL with room pushes pc + 2 and goes to nnn; with SP = 16 it raises StackOverflow (the entry's place is
the spec's D22). -/
def Obligations.CallPushesAndJumps : Prop :=
  ∀ (nnn : Imm12) (s : State),
    (∀ h : s.SP.val < 16, ∃ t, exec (.call nnn) s = .next t ∧ t.pc.toNat = nnn.toNat ∧ t.SP.val = s.SP.val + 1 ∧
      t.Stack[s.SP.val] = s.pc + 2 ∧ (∀ k : Fin 16, k.val ≠ s.SP.val → t.Stack[k.val] = s.Stack[k.val]) ∧
      OnlyStackAndPc s t) ∧
    (s.SP.val = 16 →
      exec (.call nnn) s = .fault (.stackOverflow s.pc (packNNN 0x2#4 nnn) { s with halted := true }))

/-- R101, R205: RET pops into pc and adds nothing (C2); with SP = 0 it raises StackUnderflow. The popped entry stays as a
stale one (D22). -/
def Obligations.RetPopsIntoPc : Prop :=
  ∀ s : State,
    (∀ h : 0 < s.SP.val, ∃ t, exec .ret s = .next t ∧ t.pc = s.Stack[s.SP.val - 1] ∧ t.SP.val = s.SP.val - 1 ∧
      t.Stack = s.Stack ∧ OnlyStackAndPc s t) ∧
    (s.SP.val = 0 → exec .ret s = .fault (.stackUnderflow s.pc 0x00EE#16 { s with halted := true }))

/-- R101, R103, C2: a RET on the stack that a CALL left goes to the instruction after the CALL and restores SP. -/
def Obligations.RetReturnsPastItsCall : Prop :=
  ∀ (nnn : Imm12) (s t u : State), exec (.call nnn) s = .next t → u.SP = t.SP → u.Stack = t.Stack →
    ∃ v, exec .ret u = .next v ∧ v.pc = s.pc + 2 ∧ v.SP = s.SP

/-- R104 to R107: the four register skips add 4 to pc when their condition holds and 2 when not; nothing else changes. -/
def Obligations.RegisterSkips : Prop :=
  ∀ (x y : Reg) (kk : Byte) (s : State),
    (∃ t, exec (.seImm x kk) s = .next t ∧ t.pc = (if s.reg x = kk then s.pc + 4 else s.pc + 2) ∧ OnlyPc s t) ∧
    (∃ t, exec (.sneImm x kk) s = .next t ∧ t.pc = (if s.reg x ≠ kk then s.pc + 4 else s.pc + 2) ∧ OnlyPc s t) ∧
    (∃ t, exec (.seReg x y) s = .next t ∧ t.pc = (if s.reg x = s.reg y then s.pc + 4 else s.pc + 2) ∧ OnlyPc s t) ∧
    ∃ t, exec (.sneReg x y) s = .next t ∧ t.pc = (if s.reg x ≠ s.reg y then s.pc + 4 else s.pc + 2) ∧ OnlyPc s t

/-! ## ALU and registers -/

/-- R120: word 6xkk; Vx gets kk, no flag, pc + 2, nothing else. -/
def Obligations.LoadImmediate : Prop :=
  ∀ (x : Reg) (kk : Byte), decode (packXKK 0x6#4 x kk) = .ok (.ldImm x kk) ∧
    ∀ s : State, ∃ t, exec (.ldImm x kk) s = .next t ∧ t.reg x = kk ∧ SameRegsBut [x] s t ∧ t.pc = s.pc + 2 ∧
      OnlyRegsAndPc s t

/-- R121: word 7xkk; Vx gets the sum modulo 256, no carry is recorded, pc + 2, nothing else. -/
def Obligations.AddImmediate : Prop :=
  ∀ (x : Reg) (kk : Byte), decode (packXKK 0x7#4 x kk) = .ok (.addImm x kk) ∧
    ∀ s : State, ∃ t, exec (.addImm x kk) s = .next t ∧ (t.reg x).toNat = ((s.reg x).toNat + kk.toNat) % 256 ∧
      SameRegsBut [x] s t ∧ t.pc = s.pc + 2 ∧ OnlyRegsAndPc s t

/-- R122 to R125: copy, OR, AND and XOR, bit by bit, with no flag effect. -/
def Obligations.CopyAndLogic : Prop :=
  ∀ (x y : Reg) (s : State),
    (∃ t, exec (.ldReg x y) s = .next t ∧ t.reg x = s.reg y ∧ SameRegsBut [x] s t ∧ t.pc = s.pc + 2 ∧
      OnlyRegsAndPc s t) ∧
    (∃ t, exec (.orReg x y) s = .next t ∧
      (∀ k : Fin 8, (t.reg x)[k.val] = ((s.reg x)[k.val] || (s.reg y)[k.val])) ∧ SameRegsBut [x] s t ∧
      t.pc = s.pc + 2 ∧ OnlyRegsAndPc s t) ∧
    (∃ t, exec (.andReg x y) s = .next t ∧
      (∀ k : Fin 8, (t.reg x)[k.val] = ((s.reg x)[k.val] && (s.reg y)[k.val])) ∧ SameRegsBut [x] s t ∧
      t.pc = s.pc + 2 ∧ OnlyRegsAndPc s t) ∧
    ∃ t, exec (.xorReg x y) s = .next t ∧
      (∀ k : Fin 8, (t.reg x)[k.val] = ((s.reg x)[k.val] != (s.reg y)[k.val])) ∧ SameRegsBut [x] s t ∧
      t.pc = s.pc + 2 ∧ OnlyRegsAndPc s t

/-- R126, R127, R128, R130: sum and differences modulo 256 with VF the carry or the inverted borrow. When the destination
is VF the flag is what stays: the spec's own decision D8. -/
def Obligations.AddAndSubtractWithFlag : Prop :=
  ∀ (x y : Reg) (s : State),
    (∃ t, exec (.addReg x y) s = .next t ∧
      t.reg VF = (if 255 < (s.reg x).toNat + (s.reg y).toNat then 1 else 0) ∧
      (x ≠ VF → (t.reg x).toNat = ((s.reg x).toNat + (s.reg y).toNat) % 256) ∧
      SameRegsBut [x, VF] s t ∧ t.pc = s.pc + 2 ∧ OnlyRegsAndPc s t) ∧
    (∃ t, exec (.sub x y) s = .next t ∧
      t.reg VF = (if (s.reg y).toNat ≤ (s.reg x).toNat then 1 else 0) ∧
      (x ≠ VF → (t.reg x).toNat = ((s.reg x).toNat + 256 - (s.reg y).toNat) % 256) ∧
      SameRegsBut [x, VF] s t ∧ t.pc = s.pc + 2 ∧ OnlyRegsAndPc s t) ∧
    ∃ t, exec (.subn x y) s = .next t ∧
      t.reg VF = (if (s.reg x).toNat ≤ (s.reg y).toNat then 1 else 0) ∧
      (x ≠ VF → (t.reg x).toNat = ((s.reg y).toNat + 256 - (s.reg x).toNat) % 256) ∧
      SameRegsBut [x, VF] s t ∧ t.pc = s.pc + 2 ∧ OnlyRegsAndPc s t

/-- R129, R131: shifts by one of Vx, y ignored, VF the bit shifted out. When the destination is VF the shifted original
stays: the spec's own decision D9. -/
def Obligations.ShiftsByOne : Prop :=
  ∀ (x y : Reg) (s : State),
    (∃ t, exec (.shr x y) s = .next t ∧ (t.reg x).toNat = (s.reg x).toNat / 2 ∧
      (x ≠ VF → t.reg VF = if (s.reg x).toNat % 2 = 1 then 1 else 0) ∧
      SameRegsBut [x, VF] s t ∧ t.pc = s.pc + 2 ∧ OnlyRegsAndPc s t) ∧
    ∃ t, exec (.shl x y) s = .next t ∧ (t.reg x).toNat = 2 * (s.reg x).toNat % 256 ∧
      (x ≠ VF → t.reg VF = if 128 ≤ (s.reg x).toNat then 1 else 0) ∧
      SameRegsBut [x, VF] s t ∧ t.pc = s.pc + 2 ∧ OnlyRegsAndPc s t

/-- R134: Vx gets the tick's random byte, whatever it is, ANDed with kk (D20 makes the byte an input). -/
def Obligations.RandomAndMask : Prop :=
  ∀ (x : Reg) (kk : Byte) (s : State), ∃ t, exec (.rnd x kk) s = .next t ∧
    (∀ k : Fin 8, (t.reg x)[k.val] = (s.input.rnd[k.val] && kk[k.val])) ∧ SameRegsBut [x] s t ∧
    t.pc = s.pc + 2 ∧ OnlyRegsAndPc s t

/-! ## The address register and memory -/

/-- R140, R141, R142: the three writes of I. For Vx > 15 LD F is still 5 times the whole byte: the spec's decision D12. -/
def Obligations.AddressRegisterWrites : Prop :=
  ∀ (x : Reg) (nnn : Imm12) (s : State),
    (∃ t, exec (.ldI nnn) s = .next t ∧ t.I.toNat = nnn.toNat ∧ t.pc = s.pc + 2 ∧ OnlyIAndPc s t) ∧
    (∃ t, exec (.addI x) s = .next t ∧ t.I.toNat = (s.I.toNat + (s.reg x).toNat) % 65536 ∧ t.pc = s.pc + 2 ∧
      OnlyIAndPc s t) ∧
    ∃ t, exec (.ldF x) s = .next t ∧ t.I.toNat = 5 * (s.reg x).toNat ∧ t.pc = s.pc + 2 ∧ OnlyIAndPc s t

/-- R143: the three decimal digits at I, I + 1, I + 2, when they fit; every other byte, and I, stay. -/
def Obligations.BcdStore : Prop :=
  ∀ (x : Reg) (s : State), Memory.wf s.Mem → s.I.toNat + 2 ≤ 0xFFF →
    ∃ t, exec (.ldB x) s = .next t ∧
      (t.byteAt (s.dataAddr 0)).toNat = (s.reg x).toNat / 100 ∧
      (t.byteAt (s.dataAddr 1)).toNat = (s.reg x).toNat / 10 % 10 ∧
      (t.byteAt (s.dataAddr 2)).toNat = (s.reg x).toNat % 10 ∧
      (∀ a, (∀ k, k < 3 → a ≠ s.dataAddr k) → t.byteAt a = s.byteAt a) ∧
      t.pc = s.pc + 2 ∧ OnlyMemAndPc s t

/-- R144: V0..Vx at I..I+x, when they fit; every other byte stays, and I does (D13). -/
def Obligations.StoreRegisterRange : Prop :=
  ∀ (x : Reg) (s : State), Memory.wf s.Mem → s.I.toNat + x.toNat ≤ 0xFFF →
    ∃ t, exec (.storeRegs x) s = .next t ∧
      (∀ r : Reg, r.toNat ≤ x.toNat → t.byteAt (s.dataAddr r.toNat) = s.reg r) ∧
      (∀ a, (∀ k, k ≤ x.toNat → a ≠ s.dataAddr k) → t.byteAt a = s.byteAt a) ∧
      t.pc = s.pc + 2 ∧ OnlyMemAndPc s t

/-- R145: V0..Vx from I..I+x, when they fit; the other registers stay, and I does (D13). -/
def Obligations.LoadRegisterRange : Prop :=
  ∀ (x : Reg) (s : State), s.I.toNat + x.toNat ≤ 0xFFF →
    ∃ t, exec (.loadRegs x) s = .next t ∧
      (∀ r : Reg, t.reg r = if r.toNat ≤ x.toNat then s.byteAt (s.dataAddr r.toNat) else s.reg r) ∧
      t.pc = s.pc + 2 ∧ OnlyRegsAndPc s t

/-- R55, R203: an access that does not fit raises MemoryBoundsError with pc, the word, I and the count, and changes nothing
(the exact sum is the spec's D15, the payload D23). -/
def Obligations.AccessesPastTheEndFault : Prop :=
  ∀ (x y : Reg) (n : Nibble) (s : State),
    (4096 < s.I.toNat + n.toNat → exec (.drw x y n) s =
      .fault (.memoryBoundsError s.pc (packXYN 0xD#4 x y n) s.I n.toNat { s with halted := true })) ∧
    (0xFFF < s.I.toNat + 2 → exec (.ldB x) s =
      .fault (.memoryBoundsError s.pc (packXKK 0xF#4 x 0x33#8) s.I 3 { s with halted := true })) ∧
    (0xFFF < s.I.toNat + x.toNat →
      exec (.storeRegs x) s =
        .fault (.memoryBoundsError s.pc (packXKK 0xF#4 x 0x55#8) s.I (x.toNat + 1) { s with halted := true }) ∧
      exec (.loadRegs x) s =
        .fault (.memoryBoundsError s.pc (packXKK 0xF#4 x 0x65#8) s.I (x.toNat + 1) { s with halted := true }))

/-- R146 (which the spec marks derived): a store of a register range, then a load of it, with I and the stored bytes kept in
between and anything done to the registers, restores V0..Vx. -/
def Obligations.StoreThenLoadRestores : Prop :=
  ∀ (x : Reg) (s t u : State), Memory.wf s.Mem → exec (.storeRegs x) s = .next t → u.I = t.I →
    (∀ k, k ≤ x.toNat → u.byteAt (t.dataAddr k) = t.byteAt (t.dataAddr k)) →
    ∃ v, exec (.loadRegs x) u = .next v ∧ ∀ r : Reg, r.toNat ≤ x.toNat → v.reg r = s.reg r

/-- R61, R241 (which the spec marks derived, with its D26): what LD B or LD [I],Vx stored, wherever it stored it, is what
every later fetch of those bytes reads, the next tick's among them, and the other bytes are fetched as they were. -/
def Obligations.StoreIsSeenByTheNextFetch : Prop :=
  ∀ (i : Instr) (s : State), Memory.wf s.Mem → 0 < storedBytes i → checkOk s i = true →
    ∃ t, exec i s = .next t ∧ t.pc = s.pc + 2 ∧ SameMemory t t.nextInput.hostTurn.tickTimers ∧
      t.nextInput.hostTurn.tickTimers.pc = t.pc ∧
      ∀ v, SameMemory t v → v.pc.toNat ≤ 0xFFE → ∃ w, v.fetch = some w ∧
        w.toNat = byteAfter s i v.pc.toNat * 256 + byteAfter s i (v.pc.toNat + 1)

/-! ## The display -/

/-- R160: CLS turns every pixel off and sets Dirty, also when none was on (D19); VF and the rest stay. -/
def Obligations.ClearScreen : Prop :=
  ∀ s : State, ∃ t, exec .cls s = .next t ∧ (∀ r c, t.pixel r c = false) ∧ t.Dirty = true ∧
    SameRegsBut [] s t ∧ t.I = s.I ∧ SameStack s t ∧ SameTimers s t ∧ SameMemory s t ∧ SameHost s t ∧ t.pc = s.pc + 2

/-- R161, R162: DRW inverts exactly the pixels under the sprite's 1 bits, wrapping; VF tells whether one of them was on;
Dirty is set whatever changed, n = 0 included (D16, D19). -/
def Obligations.DrawSprite : Prop :=
  ∀ (x y : Reg) (n : Nibble) (s : State), s.I.toNat + n.toNat ≤ 4096 →
    ∃ t, exec (.drw x y n) s = .next t ∧
      (∀ r c, spriteCovers s (s.reg x).toNat (s.reg y).toNat n.toNat r c → t.pixel r c = !s.pixel r c) ∧
      (∀ r c, ¬ spriteCovers s (s.reg x).toNat (s.reg y).toNat n.toNat r c → t.pixel r c = s.pixel r c) ∧
      ((∃ r c, spriteCovers s (s.reg x).toNat (s.reg y).toNat n.toNat r c ∧ s.pixel r c = true) → t.reg VF = 1) ∧
      ((∀ r c, spriteCovers s (s.reg x).toNat (s.reg y).toNat n.toNat r c → s.pixel r c = false) → t.reg VF = 0) ∧
      t.Dirty = true ∧ SameRegsBut [VF] s t ∧ t.I = s.I ∧ SameStack s t ∧ SameTimers s t ∧ SameMemory s t ∧
      SameHost s t ∧ t.pc = s.pc + 2

/-- R163 (which the spec marks derived): a second identical draw restores the buffer, and its VF is 1 exactly when the first
turned a pixel on. -/
def Obligations.SecondDrawRestoresTheBuffer : Prop :=
  ∀ (x y : Reg) (n : Nibble) (s t u : State), exec (.drw x y n) s = .next t →
    u.I = s.I → u.reg x = s.reg x → u.reg y = s.reg y →
    (∀ k, k < n.toNat → u.byteAt (s.dataAddr k) = s.byteAt (s.dataAddr k)) →
    (∀ r c, u.pixel r c = t.pixel r c) →
    ∃ v, exec (.drw x y n) u = .next v ∧ (∀ r c, v.pixel r c = s.pixel r c) ∧ (v.reg VF = 0 ∨ v.reg VF = 1) ∧
      (v.reg VF = 1 ↔ ∃ r c, s.pixel r c = false ∧ t.pixel r c = true)

/-! ## Keys and timers -/

/-- R180, R181: with Vx naming a key, SKP skips when it is down and SKNP when it is up; nothing else changes. -/
def Obligations.KeySkips : Prop :=
  ∀ (x : Reg) (s : State) (h : (s.reg x).toNat < 16),
    (∃ t, exec (.skp x) s = .next t ∧
      t.pc = (if s.input.keys[(s.reg x).toNat] = true then s.pc + 4 else s.pc + 2) ∧ OnlyPc s t) ∧
    ∃ t, exec (.sknp x) s = .next t ∧
      t.pc = (if s.input.keys[(s.reg x).toNat] = false then s.pc + 4 else s.pc + 2) ∧ OnlyPc s t

/-- R206: with Vx > 15 both raise KeyIndexOutOfRange. The error kind is the spec's own, by D11. -/
def Obligations.KeyIndexPastFifteenFaults : Prop :=
  ∀ (x : Reg) (s : State), 15 < (s.reg x).toNat →
    exec (.skp x) s =
      .fault (.keyIndexOutOfRange s.pc (packXKK 0xE#4 x 0x9E#8) (s.reg x) { s with halted := true }) ∧
    exec (.sknp x) s =
      .fault (.keyIndexOutOfRange s.pc (packXKK 0xE#4 x 0xA1#8) (s.reg x) { s with halted := true })

/-- R183: with every key up nothing changes, pc included; else Vx gets a key that is down, the lowest (the spec's decision
D14), and pc advances. -/
def Obligations.WaitForKeypress : Prop :=
  ∀ (x : Reg) (s : State),
    ((∀ k : Fin 16, s.input.keys[k.val] = false) → exec (.ldVxK x) s = .next s) ∧
    ∀ k : Fin 16, s.input.keys[k.val] = true → (∀ j : Fin 16, j < k → s.input.keys[j.val] = false) →
      ∃ t, exec (.ldVxK x) s = .next t ∧ (t.reg x).toNat = k.val ∧ SameRegsBut [x] s t ∧ t.pc = s.pc + 2 ∧
        OnlyRegsAndPc s t

/-- R182, R184, R185: the three timer copies. -/
def Obligations.TimerCopies : Prop :=
  ∀ (x : Reg) (s : State),
    (∃ t, exec (.ldVxDT x) s = .next t ∧ t.reg x = s.DT ∧ SameRegsBut [x] s t ∧ t.pc = s.pc + 2 ∧
      OnlyRegsAndPc s t) ∧
    (∃ t, exec (.ldDT x) s = .next t ∧ t.DT = s.reg x ∧ t.ST = s.ST ∧ SameRegsBut [] s t ∧ t.I = s.I ∧
      SameStack s t ∧ SameMemory s t ∧ SameDisplay s t ∧ SameHost s t ∧ t.pc = s.pc + 2) ∧
    ∃ t, exec (.ldST x) s = .next t ∧ t.ST = s.reg x ∧ t.DT = s.DT ∧ SameRegsBut [] s t ∧ t.I = s.I ∧
      SameStack s t ∧ SameMemory s t ∧ SameDisplay s t ∧ SameHost s t ∧ t.pc = s.pc + 2

/-! ## Reset, load and the invariant -/

/-- R33, R30: the state at reset, whatever the first tick's inputs are (log entry 2). The font is the default of R30 (log entry 5), the blank display and Dirty = false are the
spec's D5, zero memory after the program its D4. -/
def Obligations.ResetState : Prop :=
  (∀ r, State.reset.reg r = 0) ∧ State.reset.I = 0 ∧ State.reset.pc = 0x200 ∧ State.reset.SP.val = 0 ∧
  (∀ k : Fin 16, State.reset.Stack[k.val] = 0) ∧ State.reset.DT = 0 ∧ State.reset.ST = 0 ∧
  (∀ a, 80 ≤ a → State.reset.byteAt a = 0) ∧ (∀ a : Fin 80, State.reset.byteAt a.val = Config.font[a.val]) ∧
  (∀ r c, State.reset.pixel r c = false) ∧ State.reset.Dirty = false ∧ State.reset.halted = false

/-- R207, R230: load refuses an empty and an oversized image; else the font is at 0x000, the image byte by byte at 0x200,
zero elsewhere, and the rest as at reset, for every font (D4, D5, D27 are the spec's; log entry 6). -/
def Obligations.LoadBuildsTheInitialState : Prop :=
  ∀ (font : Vector Byte 80) (image : List Byte),
    (image.length = 0 → State.load font image = .error .empty) ∧
    (3584 < image.length → State.load font image = .error (.tooLarge image.length)) ∧
    (0 < image.length → image.length ≤ 3584 → ∃ s, State.load font image = .ok s ∧
      (∀ a : Fin 80, s.byteAt a.val = font[a.val]) ∧
      (∀ a, 80 ≤ a → a < 0x200 → s.byteAt a = 0) ∧
      (∀ k (h : k < image.length), s.byteAt (0x200 + k) = image[k]) ∧
      (∀ a, 0x200 + image.length ≤ a → s.byteAt a = 0) ∧
      s = { State.reset with Mem := s.Mem } ∧ Inv s)

/-- R34: the invariant holds at reset. -/
def Obligations.ResetHasTheInvariant : Prop := Inv State.reset

/-- R34, R24: every step keeps the invariant, from any state that has it: memory stays canonical, pc at most 0x10FE, every
stack entry at most 0x1000 (SP <= 16 holds by its type). -/
def Obligations.StepKeepsTheInvariant : Prop :=
  ∀ s t : State, Inv s → step s = .next t → Inv t
end

