-- ==== Sys2Proof/Laws/Decode.lean ====
section
/-! SUPPORT. What packing and reading the fields of an instruction word do, as numbers and to one another. -/

namespace Sys2Proof

/-! ## Words as numbers -/

theorem toNat_packNNN (a : Nibble) (n : Imm12) : (packNNN a n).toNat = a.toNat * 4096 + n.toNat := by
  show (a ++ n).toNat = _
  rw [BitVec.toNat_append, ← Nat.shiftLeft_add_eq_or_of_lt n.isLt, Nat.shiftLeft_eq]

theorem toNat_packXKK (a : Nibble) (x : Reg) (kk : Byte) :
    (packXKK a x kk).toNat = a.toNat * 4096 + x.toNat * 256 + kk.toNat := by
  show (a ++ x ++ kk).toNat = _
  rw [BitVec.toNat_append, ← Nat.shiftLeft_add_eq_or_of_lt kk.isLt, Nat.shiftLeft_eq,
    BitVec.toNat_append, ← Nat.shiftLeft_add_eq_or_of_lt x.isLt, Nat.shiftLeft_eq]
  omega

theorem toNat_packXYN (a : Nibble) (x y : Reg) (b : Nibble) :
    (packXYN a x y b).toNat = a.toNat * 4096 + x.toNat * 256 + y.toNat * 16 + b.toNat := by
  show (a ++ x ++ y ++ b).toNat = _
  rw [BitVec.toNat_append, ← Nat.shiftLeft_add_eq_or_of_lt b.isLt, Nat.shiftLeft_eq,
    BitVec.toNat_append, ← Nat.shiftLeft_add_eq_or_of_lt y.isLt, Nat.shiftLeft_eq,
    BitVec.toNat_append, ← Nat.shiftLeft_add_eq_or_of_lt x.isLt, Nat.shiftLeft_eq]
  omega

theorem toNat_wordOfBytes (hi lo : Byte) : (wordOfBytes hi lo).toNat = hi.toNat * 256 + lo.toNat := by
  show (hi ++ lo).toNat = _
  rw [BitVec.toNat_append, ← Nat.shiftLeft_add_eq_or_of_lt lo.isLt, Nat.shiftLeft_eq]

theorem toNat_fieldA (w : Word) : (fieldA w).toNat = w.toNat / 4096 := by
  have := w.isLt
  simp only [fieldA, BitVec.extractLsb'_toNat, Nat.shiftRight_eq_div_pow]
  omega

theorem toNat_fieldX (w : Word) : (fieldX w).toNat = w.toNat / 256 % 16 := by
  simp only [fieldX, BitVec.extractLsb'_toNat, Nat.shiftRight_eq_div_pow]

theorem toNat_fieldY (w : Word) : (fieldY w).toNat = w.toNat / 16 % 16 := by
  simp only [fieldY, BitVec.extractLsb'_toNat, Nat.shiftRight_eq_div_pow]

theorem toNat_fieldB (w : Word) : (fieldB w).toNat = w.toNat % 16 := by
  simp [fieldB, BitVec.extractLsb'_toNat]

theorem toNat_fieldNNN (w : Word) : (fieldNNN w).toNat = w.toNat % 4096 := by
  simp [fieldNNN, BitVec.extractLsb'_toNat]

theorem toNat_fieldKK (w : Word) : (fieldKK w).toNat = w.toNat % 256 := by
  simp [fieldKK, BitVec.extractLsb'_toNat]

theorem toNat_highByte (w : Word) : (highByte w).toNat = w.toNat / 256 := by
  have := w.isLt
  simp only [highByte, BitVec.extractLsb'_toNat, Nat.shiftRight_eq_div_pow]
  omega

theorem toNat_lowByte (w : Word) : (lowByte w).toNat = w.toNat % 256 := by
  simp [lowByte, BitVec.extractLsb'_toNat]

/-! ## A field of a packed word is what was packed -/

@[simp] theorem fieldA_packNNN (a : Nibble) (n : Imm12) : fieldA (packNNN a n) = a := by
  apply BitVec.eq_of_toNat_eq; rw [toNat_fieldA, toNat_packNNN]; omega

@[simp] theorem fieldNNN_packNNN (a : Nibble) (n : Imm12) : fieldNNN (packNNN a n) = n := by
  apply BitVec.eq_of_toNat_eq; rw [toNat_fieldNNN, toNat_packNNN]; omega

@[simp] theorem fieldA_packXKK (a : Nibble) (x : Reg) (kk : Byte) : fieldA (packXKK a x kk) = a := by
  apply BitVec.eq_of_toNat_eq; rw [toNat_fieldA, toNat_packXKK]; omega

@[simp] theorem fieldX_packXKK (a : Nibble) (x : Reg) (kk : Byte) : fieldX (packXKK a x kk) = x := by
  apply BitVec.eq_of_toNat_eq; rw [toNat_fieldX, toNat_packXKK]; omega

@[simp] theorem fieldKK_packXKK (a : Nibble) (x : Reg) (kk : Byte) : fieldKK (packXKK a x kk) = kk := by
  apply BitVec.eq_of_toNat_eq; rw [toNat_fieldKK, toNat_packXKK]; omega

@[simp] theorem fieldA_packXYN (a : Nibble) (x y : Reg) (b : Nibble) : fieldA (packXYN a x y b) = a := by
  apply BitVec.eq_of_toNat_eq; rw [toNat_fieldA, toNat_packXYN]; omega

@[simp] theorem fieldX_packXYN (a : Nibble) (x y : Reg) (b : Nibble) : fieldX (packXYN a x y b) = x := by
  apply BitVec.eq_of_toNat_eq; rw [toNat_fieldX, toNat_packXYN]; omega

@[simp] theorem fieldY_packXYN (a : Nibble) (x y : Reg) (b : Nibble) : fieldY (packXYN a x y b) = y := by
  apply BitVec.eq_of_toNat_eq; rw [toNat_fieldY, toNat_packXYN]; omega

@[simp] theorem fieldB_packXYN (a : Nibble) (x y : Reg) (b : Nibble) : fieldB (packXYN a x y b) = b := by
  apply BitVec.eq_of_toNat_eq; rw [toNat_fieldB, toNat_packXYN]; omega

@[simp] theorem wordOfBytes_high_low (w : Word) : wordOfBytes (highByte w) (lowByte w) = w := by
  apply BitVec.eq_of_toNat_eq; rw [toNat_wordOfBytes, toNat_highByte, toNat_lowByte]; omega
/-! ## A word is the packing of its fields -/

theorem packNNN_fields (w : Word) : packNNN (fieldA w) (fieldNNN w) = w := by
  apply BitVec.eq_of_toNat_eq; rw [toNat_packNNN, toNat_fieldA, toNat_fieldNNN]; omega

theorem packXKK_fields (w : Word) : packXKK (fieldA w) (fieldX w) (fieldKK w) = w := by
  apply BitVec.eq_of_toNat_eq; rw [toNat_packXKK, toNat_fieldA, toNat_fieldX, toNat_fieldKK]; omega

theorem packXYN_fields (w : Word) : packXYN (fieldA w) (fieldX w) (fieldY w) (fieldB w) = w := by
  apply BitVec.eq_of_toNat_eq; rw [toNat_packXYN, toNat_fieldA, toNat_fieldX, toNat_fieldY, toNat_fieldB]; omega

end Sys2Proof
end

