-- ==== Sys2Proof/Laws/Display.lean ====
section
/-! SUPPORT. What the blitter does to every pixel and to the collision flag (43_display.md R161). -/

namespace Sys2Proof.Machine

theorem pixel_invert (g : Grid) (r r' : Fin 32) (c c' : Fin 64) :
    Grid.pixel (Grid.invert g r c) r' c' = (Grid.pixel g r' c' ^^ decide (r' = r ∧ c' = c)) := by
  unfold Grid.pixel Grid.invert
  by_cases hr : r' = r
  · subst hr
    by_cases hc : c' = c
    · subst hc; simp
    · have : ¬ c.val = c'.val := fun e => hc (Fin.ext e.symm)
      simp [this, hc]
  · have : ¬ r.val = r'.val := fun e => hr (Fin.ext e.symm)
    simp [this, hr]

@[simp] theorem pixel_clear (r : Fin 32) (c : Fin 64) : Grid.pixel Grid.clear r c = false := by
  simp [Grid.pixel, Grid.clear]

/-- Bits 0 to n - 1 of a sprite byte, n at most 8: each inverts one pixel of the row, all of them different, and the
collision is that one of these pixels was on. -/
theorem blitBits_spec (cx : Nat) (r : Fin 32) (s : Byte) (acc : Grid × Bool) (n : Nat) (hn : n ≤ 8) :
    (∀ r' c', Grid.pixel ((List.range n).foldl (blitBit cx r s) acc).1 r' c' =
      (Grid.pixel acc.1 r' c' ^^ decide (r' = r ∧ ∃ j, j < n ∧ c' = wrapCol (cx + j) ∧ spriteBit s j = true))) ∧
    (((List.range n).foldl (blitBit cx r s) acc).2 = true ↔
      acc.2 = true ∨ ∃ j, j < n ∧ spriteBit s j = true ∧ Grid.pixel acc.1 r (wrapCol (cx + j)) = true) := by
  induction n with
  | zero => simp
  | succ n ih =>
    obtain ⟨ihp, ihc⟩ := ih (by omega)
    rw [List.range_succ, List.foldl_append]
    set mid := (List.range n).foldl (blitBit cx r s) acc with hmid
    have hne : ∀ j, j < n → wrapCol (cx + n) ≠ wrapCol (cx + j) := by
      intro j hj e
      have := congrArg Fin.val e
      simp only [wrapCol] at this
      omega
    have hold : Grid.pixel mid.1 r (wrapCol (cx + n)) = Grid.pixel acc.1 r (wrapCol (cx + n)) := by
      have hno : ¬ ∃ j, j < n ∧ wrapCol (cx + n) = wrapCol (cx + j) ∧ spriteBit s j = true :=
        fun ⟨j, hj, e, _⟩ => hne j hj e
      rw [ihp]; simp [hno]
    simp only [List.foldl_cons, List.foldl_nil, blitBit]
    by_cases hb : spriteBit s n = true
    · simp only [hb, if_true]
      refine ⟨fun r' c' => ?_, ?_⟩
      · rw [pixel_invert, ihp]
        by_cases hr : r' = r
        · by_cases hc : c' = wrapCol (cx + n)
          · subst hr hc
            have hno : ¬ ∃ j, j < n ∧ wrapCol (cx + n) = wrapCol (cx + j) ∧ spriteBit s j = true :=
              fun ⟨j, hj, e, _⟩ => hne j hj e
            have hyes : ∃ j, j ≤ n ∧ wrapCol (cx + n) = wrapCol (cx + j) ∧ spriteBit s j = true :=
              ⟨n, Nat.le_refl n, rfl, hb⟩
            simp [hno, hyes]
          · have : (∃ j, j ≤ n ∧ c' = wrapCol (cx + j) ∧ spriteBit s j = true) ↔
                ∃ j, j < n ∧ c' = wrapCol (cx + j) ∧ spriteBit s j = true := by
              constructor
              · rintro ⟨j, hj, e, hs⟩
                rcases Nat.lt_or_eq_of_le hj with hj | rfl
                · exact ⟨j, hj, e, hs⟩
                · exact absurd e hc
              · rintro ⟨j, hj, e, hs⟩; exact ⟨j, by omega, e, hs⟩
            simp [hc, this]
        · simp [hr]
      · rw [Bool.or_eq_true, ihc, hold]
        constructor
        · rintro ((h | ⟨j, hj, h⟩) | h)
          · exact .inl h
          · exact .inr ⟨j, by omega, h⟩
          · exact .inr ⟨n, by omega, hb, h⟩
        · rintro (h | ⟨j, hj, h1, h2⟩)
          · exact .inl (.inl h)
          · rcases Nat.lt_succ_iff_lt_or_eq.1 hj with hj | rfl
            · exact .inl (.inr ⟨j, hj, h1, h2⟩)
            · exact .inr h2
    · simp only [hb]
      have key : ∀ (P : Nat → Prop), (∃ j, j < n + 1 ∧ P j ∧ spriteBit s j = true) ↔
          ∃ j, j < n ∧ P j ∧ spriteBit s j = true := by
        intro P
        constructor
        · rintro ⟨j, hj, e, hs⟩
          rcases Nat.lt_succ_iff_lt_or_eq.1 hj with hj | rfl
          · exact ⟨j, hj, e, hs⟩
          · exact absurd hs hb
        · rintro ⟨j, hj, e, hs⟩; exact ⟨j, by omega, e, hs⟩
      refine ⟨fun r' c' => ?_, ?_⟩
      · rw [if_neg (by simp), ihp]
        simp only [key (fun j => c' = wrapCol (cx + j))]
      · rw [if_neg (by simp), ihc]
        simp only [and_comm (a := spriteBit s _ = true), key (fun j => Grid.pixel acc.1 r (wrapCol (cx + j)) = true)]

/-- Pixel (r, c) is under a 1 bit of the sprite bytes `ss` placed at (cx, cy). -/
def coveredBy (cx cy : Nat) (ss : List Byte) (r : Fin 32) (c : Fin 64) : Prop :=
  ∃ k, ∃ h : k < ss.length, r = wrapRow (cy + k) ∧ ∃ j, j < 8 ∧ c = wrapCol (cx + j) ∧ spriteBit ss[k] j = true

theorem coveredBy_cons (cx cy : Nat) (s : Byte) (ss : List Byte) (r : Fin 32) (c : Fin 64) :
    coveredBy cx cy (s :: ss) r c ↔
      (r = wrapRow cy ∧ ∃ j, j < 8 ∧ c = wrapCol (cx + j) ∧ spriteBit s j = true) ∨ coveredBy cx (cy + 1) ss r c := by
  constructor
  · rintro ⟨k, hk, hr, h⟩
    cases k with
    | zero => exact .inl ⟨hr, h⟩
    | succ k =>
      refine .inr ⟨k, by simpa using hk, ?_, h⟩
      rw [hr, show cy + (k + 1) = cy + 1 + k by omega]
  · rintro (⟨hr, h⟩ | ⟨k, hk, hr, h⟩)
    · exact ⟨0, by simp, hr, h⟩
    · refine ⟨k + 1, by simpa using hk, ?_, h⟩
      rw [hr, show cy + 1 + k = cy + (k + 1) by omega]

/-- A sprite of at most 32 bytes inverts exactly the covered pixels, and the collision is that one of them was on. -/
theorem blitRows_spec (cx cy : Nat) (ss : List Byte) (acc : Grid × Bool) (hlen : ss.length ≤ 32) :
    (∀ r c, (coveredBy cx cy ss r c → Grid.pixel (blitRows cx cy ss acc).1 r c = !Grid.pixel acc.1 r c) ∧
      (¬ coveredBy cx cy ss r c → Grid.pixel (blitRows cx cy ss acc).1 r c = Grid.pixel acc.1 r c)) ∧
    ((blitRows cx cy ss acc).2 = true ↔
      acc.2 = true ∨ ∃ r c, coveredBy cx cy ss r c ∧ Grid.pixel acc.1 r c = true) := by
  induction ss generalizing cy acc with
  | nil =>
    have hno : ∀ r c, ¬ coveredBy cx cy [] r c := by rintro r c ⟨k, hk, -⟩; simp at hk
    simp [blitRows, hno]
  | cons s ss ih =>
    simp only [List.length_cons] at hlen
    obtain ⟨hbp, hbc⟩ := blitBits_spec cx (wrapRow cy) s acc 8 (Nat.le_refl 8)
    obtain ⟨ihp, ihc⟩ := ih (cy + 1) (blitRow cx (wrapRow cy) s acc) (by omega)
    have hdis : ∀ c, ¬ coveredBy cx (cy + 1) ss (wrapRow cy) c := by
      rintro c ⟨k, hk, hr, -⟩
      have := congrArg Fin.val hr
      simp only [wrapRow] at this
      omega
    simp only [blitRows, coveredBy_cons]
    refine ⟨fun r c => ⟨?_, fun h => ?_⟩, ?_⟩
    · rintro (⟨rfl, h⟩ | h)
      · rw [(ihp _ c).2 (hdis c)]
        unfold blitRow
        rw [hbp]; simp [h]
      · have hr : r ≠ wrapRow cy := by rintro rfl; exact hdis c h
        rw [(ihp r c).1 h]
        unfold blitRow
        rw [hbp]; simp [hr]
    · rw [not_or] at h
      rw [(ihp r c).2 h.2]
      unfold blitRow
      rw [hbp]; simp [h.1]
    · rw [ihc]
      unfold blitRow
      rw [hbc]
      constructor
      · rintro ((h | ⟨j, hj, hs, hp⟩) | ⟨r, c, hcov, hp⟩)
        · exact .inl h
        · exact .inr ⟨_, _, .inl ⟨rfl, j, hj, rfl, hs⟩, hp⟩
        · have hr : r ≠ wrapRow cy := by rintro rfl; exact hdis c hcov
          rw [hbp] at hp
          exact .inr ⟨r, c, .inr hcov, by simpa [hr] using hp⟩
      · rintro (h | ⟨r, c, ⟨rfl, j, hj, rfl, hs⟩ | hcov, hp⟩)
        · exact .inl (.inl h)
        · exact .inl (.inr ⟨j, hj, hs, hp⟩)
        · have hr : r ≠ wrapRow cy := by rintro rfl; exact hdis c hcov
          refine .inr ⟨r, c, hcov, ?_⟩
          rw [hbp]; simpa [hr] using hp

end Sys2Proof.Machine
end

