-- ==== Sys2Proof/Laws/Memory.lean ====
section
/-! SUPPORT. Memory: read after write, and every operation keeps the canonical form (20_memory.md R53, R55, R58). -/

namespace Sys2Proof.Machine

/-! ## Reads -/

theorem read_eq_resetByte (m : Memory) (a : Nat) (h : ∀ c ∈ m, a ≠ c.1) : Memory.read m a = resetByte a := by
  induction m with
  | nil => rfl
  | cons c m ih =>
    have hc : a ≠ c.1 := h c (by simp)
    simp only [Memory.read, hc, if_false]
    exact ih fun d hd => h d (by simp [hd])

theorem read_insertCell_ne (m : Memory) {a b : Nat} (v : Byte) (h : b ≠ a) :
    Memory.read (Memory.insertCell m a v) b = Memory.read m b := by
  induction m with
  | nil => by_cases hv : v = resetByte a <;> simp [Memory.insertCell, Memory.read, hv, h]
  | cons c m ih =>
    obtain ⟨k, w⟩ := c
    simp only [Memory.insertCell]
    split
    · split <;> simp [Memory.read, h]
    · split
      · rename_i hk; subst hk
        split <;> simp [Memory.read, h]
      · by_cases hb : b = k <;> simp [Memory.read, hb, ih]

theorem read_insertCell_self (m : Memory) (a : Nat) (v : Byte) (hm : m.Pairwise (fun c d => c.1 < d.1)) :
    Memory.read (Memory.insertCell m a v) a = v := by
  induction m with
  | nil => by_cases hv : v = resetByte a <;> simp [Memory.insertCell, Memory.read, hv]
  | cons c m ih =>
    obtain ⟨k, w⟩ := c
    obtain ⟨hlt, htail⟩ := List.pairwise_cons.1 hm
    simp only [Memory.insertCell]
    split
    · rename_i hak
      split
      · rename_i hv
        rw [read_eq_resetByte _ _ ?_, hv]
        intro d hd
        rcases List.mem_cons.1 hd with rfl | hd
        · exact Nat.ne_of_lt hak
        · exact Nat.ne_of_lt (Nat.lt_trans hak (hlt d hd))
      · simp [Memory.read]
    · split
      · rename_i hk; subst hk
        split
        · rename_i hv
          rw [read_eq_resetByte _ _ ?_, hv]
          exact fun d hd => Nat.ne_of_lt (hlt d hd)
        · simp [Memory.read]
      · rename_i hk
        simp only [Memory.read, hk, if_false]
        exact ih htail

theorem read_write_ne (m : Memory) {a b : Nat} (v : Byte) (h : b ≠ a) :
    Memory.read (Memory.write m a v) b = Memory.read m b := by
  unfold Memory.write
  split
  · exact read_insertCell_ne m v h
  · rfl

theorem read_write_self {m : Memory} {a : Nat} (v : Byte) (hm : Memory.wf m) (ha : a < 4096) :
    Memory.read (Memory.write m a v) a = v := by
  simp only [Memory.write, Config.memSize, ha, if_true]
  exact read_insertCell_self m a v hm.1

/-! ## The canonical form -/

theorem mem_insertCell {m : Memory} {a : Nat} {v : Byte} {c : Host.Cell} (h : c ∈ Memory.insertCell m a v) :
    (c = (a, v) ∧ v ≠ resetByte a) ∨ c ∈ m := by
  induction m with
  | nil =>
    simp only [Memory.insertCell] at h
    split at h
    · simp at h
    · rename_i hv; exact .inl ⟨by simpa using h, hv⟩
  | cons d m ih =>
    obtain ⟨k, w⟩ := d
    simp only [Memory.insertCell] at h
    split at h
    · split at h
      · exact .inr h
      · rename_i hv
        rcases List.mem_cons.1 h with h | h
        · exact .inl ⟨h, hv⟩
        · exact .inr h
    · split at h
      · split at h
        · exact .inr (List.mem_cons_of_mem _ h)
        · rename_i hv
          rcases List.mem_cons.1 h with h | h
          · exact .inl ⟨h, hv⟩
          · exact .inr (List.mem_cons_of_mem _ h)
      · rcases List.mem_cons.1 h with h | h
        · exact .inr (by simp [h])
        · rcases ih h with h | h
          · exact .inl h
          · exact .inr (List.mem_cons_of_mem _ h)

theorem sorted_insertCell (m : Memory) (a : Nat) (v : Byte) (hm : m.Pairwise (fun c d => c.1 < d.1)) :
    (Memory.insertCell m a v).Pairwise (fun c d => c.1 < d.1) := by
  induction m with
  | nil => by_cases hv : v = resetByte a <;> simp [Memory.insertCell, hv]
  | cons d m ih =>
    obtain ⟨k, w⟩ := d
    obtain ⟨hlt, htail⟩ := List.pairwise_cons.1 hm
    simp only [Memory.insertCell]
    split
    · rename_i hak
      split
      · exact hm
      · refine List.pairwise_cons.2 ⟨fun c hc => ?_, hm⟩
        rcases List.mem_cons.1 hc with rfl | hc
        · exact hak
        · exact Nat.lt_trans hak (hlt c hc)
    · rename_i hak
      split
      · rename_i hk; subst hk
        split
        · exact htail
        · exact List.pairwise_cons.2 ⟨hlt, htail⟩
      · rename_i hk
        refine List.pairwise_cons.2 ⟨fun c hc => ?_, ih htail⟩
        rcases mem_insertCell hc with ⟨rfl, -⟩ | hc
        · show k < a; omega
        · exact hlt c hc

/-- A write keeps the canonical form. -/
theorem wf_write {m : Memory} (a : Nat) (v : Byte) (hm : Memory.wf m) : Memory.wf (Memory.write m a v) := by
  unfold Memory.write
  split
  · rename_i ha
    refine ⟨sorted_insertCell m a v hm.1, fun c hc => ?_⟩
    rcases mem_insertCell hc with ⟨rfl, hv⟩ | hc
    · exact ⟨ha, hv⟩
    · exact hm.2 c hc
  · exact hm

/-- A run of writes keeps the canonical form. -/
theorem wf_writeBytes {m : Memory} (a : Nat) (vs : List Byte) (hm : Memory.wf m) :
    Memory.wf (Memory.writeBytes m a vs) := by
  induction vs generalizing m a with
  | nil => exact hm
  | cons v vs ih => exact ih (a + 1) (wf_write a v hm)

/-- Memory at reset has the canonical form. -/
theorem wf_reset : Memory.wf State.reset.Mem := by decide

/-! ## Runs of writes -/

/-- Outside the written run every byte reads as before. -/
theorem read_writeBytes_outside (m : Memory) (a b : Nat) (vs : List Byte) (h : b < a ∨ a + vs.length ≤ b) :
    Memory.read (Memory.writeBytes m a vs) b = Memory.read m b := by
  induction vs generalizing m a with
  | nil => rfl
  | cons v vs ih =>
    simp only [List.length_cons] at h
    rw [Memory.writeBytes, ih _ _ (by omega), read_write_ne m v (by omega)]

/-- Inside it the k-th byte reads as the k-th byte written. -/
theorem read_writeBytes_inside {m : Memory} (a k : Nat) (vs : List Byte) (hm : Memory.wf m) (hk : k < vs.length)
    (ha : a + vs.length ≤ 4096) : Memory.read (Memory.writeBytes m a vs) (a + k) = vs[k] := by
  induction vs generalizing m a k with
  | nil => simp at hk
  | cons v vs ih =>
    simp only [List.length_cons] at hk ha
    cases k with
    | zero =>
      rw [Memory.writeBytes, read_writeBytes_outside _ _ _ _ (by omega)]
      exact read_write_self v hm (by omega)
    | succ k =>
      have := ih (m := Memory.write m a v) (a + 1) k (wf_write a v hm) (by omega) (by omega)
      rw [Memory.writeBytes, show a + (k + 1) = a + 1 + k by omega, this]
      rfl

end Sys2Proof.Machine
end

