-- ==== Sys2Proof/Laws/State.lean ====
section
/-! SUPPORT. One lemma per field per update of State, and the reads of State through them. -/

namespace Sys2Proof.Machine

/-! ## setReg -/

@[simp] theorem setReg_V (s : State) (x : Reg) (v : Byte) : (s.setReg x v).V = s.V.set x.toNat v x.isLt := rfl
@[simp] theorem setReg_I (s : State) (x : Reg) (v : Byte) : (s.setReg x v).I = s.I := rfl
@[simp] theorem setReg_pc (s : State) (x : Reg) (v : Byte) : (s.setReg x v).pc = s.pc := rfl
@[simp] theorem setReg_SP (s : State) (x : Reg) (v : Byte) : (s.setReg x v).SP = s.SP := rfl
@[simp] theorem setReg_Stack (s : State) (x : Reg) (v : Byte) : (s.setReg x v).Stack = s.Stack := rfl
@[simp] theorem setReg_DT (s : State) (x : Reg) (v : Byte) : (s.setReg x v).DT = s.DT := rfl
@[simp] theorem setReg_ST (s : State) (x : Reg) (v : Byte) : (s.setReg x v).ST = s.ST := rfl
@[simp] theorem setReg_Mem (s : State) (x : Reg) (v : Byte) : (s.setReg x v).Mem = s.Mem := rfl
@[simp] theorem setReg_Pix (s : State) (x : Reg) (v : Byte) : (s.setReg x v).Pix = s.Pix := rfl
@[simp] theorem setReg_Dirty (s : State) (x : Reg) (v : Byte) : (s.setReg x v).Dirty = s.Dirty := rfl
@[simp] theorem setReg_halted (s : State) (x : Reg) (v : Byte) : (s.setReg x v).halted = s.halted := rfl
@[simp] theorem setReg_input (s : State) (x : Reg) (v : Byte) : (s.setReg x v).input = s.input := rfl
@[simp] theorem setReg_supplied (s : State) (x : Reg) (v : Byte) : (s.setReg x v).supplied = s.supplied := rfl
@[simp] theorem setReg_drawn (s : State) (x : Reg) (v : Byte) : (s.setReg x v).drawn = s.drawn := rfl

/-! ## setI -/

@[simp] theorem setI_V (s : State) (v : Word) : (s.setI v).V = s.V := rfl
@[simp] theorem setI_I (s : State) (v : Word) : (s.setI v).I = v := rfl
@[simp] theorem setI_pc (s : State) (v : Word) : (s.setI v).pc = s.pc := rfl
@[simp] theorem setI_SP (s : State) (v : Word) : (s.setI v).SP = s.SP := rfl
@[simp] theorem setI_Stack (s : State) (v : Word) : (s.setI v).Stack = s.Stack := rfl
@[simp] theorem setI_DT (s : State) (v : Word) : (s.setI v).DT = s.DT := rfl
@[simp] theorem setI_ST (s : State) (v : Word) : (s.setI v).ST = s.ST := rfl
@[simp] theorem setI_Mem (s : State) (v : Word) : (s.setI v).Mem = s.Mem := rfl
@[simp] theorem setI_Pix (s : State) (v : Word) : (s.setI v).Pix = s.Pix := rfl
@[simp] theorem setI_Dirty (s : State) (v : Word) : (s.setI v).Dirty = s.Dirty := rfl
@[simp] theorem setI_halted (s : State) (v : Word) : (s.setI v).halted = s.halted := rfl
@[simp] theorem setI_input (s : State) (v : Word) : (s.setI v).input = s.input := rfl
@[simp] theorem setI_supplied (s : State) (v : Word) : (s.setI v).supplied = s.supplied := rfl
@[simp] theorem setI_drawn (s : State) (v : Word) : (s.setI v).drawn = s.drawn := rfl

/-! ## setPc -/

@[simp] theorem setPc_V (s : State) (v : Word) : (s.setPc v).V = s.V := rfl
@[simp] theorem setPc_I (s : State) (v : Word) : (s.setPc v).I = s.I := rfl
@[simp] theorem setPc_pc (s : State) (v : Word) : (s.setPc v).pc = v := rfl
@[simp] theorem setPc_SP (s : State) (v : Word) : (s.setPc v).SP = s.SP := rfl
@[simp] theorem setPc_Stack (s : State) (v : Word) : (s.setPc v).Stack = s.Stack := rfl
@[simp] theorem setPc_DT (s : State) (v : Word) : (s.setPc v).DT = s.DT := rfl
@[simp] theorem setPc_ST (s : State) (v : Word) : (s.setPc v).ST = s.ST := rfl
@[simp] theorem setPc_Mem (s : State) (v : Word) : (s.setPc v).Mem = s.Mem := rfl
@[simp] theorem setPc_Pix (s : State) (v : Word) : (s.setPc v).Pix = s.Pix := rfl
@[simp] theorem setPc_Dirty (s : State) (v : Word) : (s.setPc v).Dirty = s.Dirty := rfl
@[simp] theorem setPc_halted (s : State) (v : Word) : (s.setPc v).halted = s.halted := rfl
@[simp] theorem setPc_input (s : State) (v : Word) : (s.setPc v).input = s.input := rfl
@[simp] theorem setPc_supplied (s : State) (v : Word) : (s.setPc v).supplied = s.supplied := rfl
@[simp] theorem setPc_drawn (s : State) (v : Word) : (s.setPc v).drawn = s.drawn := rfl

/-! ## advance -/

@[simp] theorem advance_V (s : State) : (s.advance).V = s.V := rfl
@[simp] theorem advance_I (s : State) : (s.advance).I = s.I := rfl
@[simp] theorem advance_pc (s : State) : (s.advance).pc = s.pc + 2 := rfl
@[simp] theorem advance_SP (s : State) : (s.advance).SP = s.SP := rfl
@[simp] theorem advance_Stack (s : State) : (s.advance).Stack = s.Stack := rfl
@[simp] theorem advance_DT (s : State) : (s.advance).DT = s.DT := rfl
@[simp] theorem advance_ST (s : State) : (s.advance).ST = s.ST := rfl
@[simp] theorem advance_Mem (s : State) : (s.advance).Mem = s.Mem := rfl
@[simp] theorem advance_Pix (s : State) : (s.advance).Pix = s.Pix := rfl
@[simp] theorem advance_Dirty (s : State) : (s.advance).Dirty = s.Dirty := rfl
@[simp] theorem advance_halted (s : State) : (s.advance).halted = s.halted := rfl
@[simp] theorem advance_input (s : State) : (s.advance).input = s.input := rfl
@[simp] theorem advance_supplied (s : State) : (s.advance).supplied = s.supplied := rfl
@[simp] theorem advance_drawn (s : State) : (s.advance).drawn = s.drawn := rfl

/-! ## hostTurn -/

@[simp] theorem hostTurn_V (s : State) : (s.hostTurn).V = s.V := rfl
@[simp] theorem hostTurn_I (s : State) : (s.hostTurn).I = s.I := rfl
@[simp] theorem hostTurn_pc (s : State) : (s.hostTurn).pc = s.pc := rfl
@[simp] theorem hostTurn_SP (s : State) : (s.hostTurn).SP = s.SP := rfl
@[simp] theorem hostTurn_Stack (s : State) : (s.hostTurn).Stack = s.Stack := rfl
@[simp] theorem hostTurn_DT (s : State) : (s.hostTurn).DT = s.DT := rfl
@[simp] theorem hostTurn_ST (s : State) : (s.hostTurn).ST = s.ST := rfl
@[simp] theorem hostTurn_Mem (s : State) : (s.hostTurn).Mem = s.Mem := rfl
@[simp] theorem hostTurn_Pix (s : State) : (s.hostTurn).Pix = s.Pix := rfl
@[simp] theorem hostTurn_Dirty (s : State) : (s.hostTurn).Dirty = (s.Dirty && !s.input.clearDirty) := rfl
@[simp] theorem hostTurn_halted (s : State) : (s.hostTurn).halted = s.halted := rfl
@[simp] theorem hostTurn_input (s : State) : (s.hostTurn).input = s.input := rfl
@[simp] theorem hostTurn_supplied (s : State) : (s.hostTurn).supplied = s.supplied := rfl
@[simp] theorem hostTurn_drawn (s : State) : (s.hostTurn).drawn = s.drawn := rfl

/-! ## placeWord -/

@[simp] theorem placeWord_V (s : State) (w : Word) : (s.placeWord w).V = s.V := rfl
@[simp] theorem placeWord_I (s : State) (w : Word) : (s.placeWord w).I = s.I := rfl
@[simp] theorem placeWord_pc (s : State) (w : Word) : (s.placeWord w).pc = s.pc := rfl
@[simp] theorem placeWord_SP (s : State) (w : Word) : (s.placeWord w).SP = s.SP := rfl
@[simp] theorem placeWord_Stack (s : State) (w : Word) : (s.placeWord w).Stack = s.Stack := rfl
@[simp] theorem placeWord_DT (s : State) (w : Word) : (s.placeWord w).DT = s.DT := rfl
@[simp] theorem placeWord_ST (s : State) (w : Word) : (s.placeWord w).ST = s.ST := rfl
@[simp] theorem placeWord_Mem (s : State) (w : Word) : (s.placeWord w).Mem = Memory.writeBytes s.Mem s.pc.toNat [highByte w, lowByte w] := rfl
@[simp] theorem placeWord_Pix (s : State) (w : Word) : (s.placeWord w).Pix = s.Pix := rfl
@[simp] theorem placeWord_Dirty (s : State) (w : Word) : (s.placeWord w).Dirty = s.Dirty := rfl
@[simp] theorem placeWord_halted (s : State) (w : Word) : (s.placeWord w).halted = s.halted := rfl
@[simp] theorem placeWord_input (s : State) (w : Word) : (s.placeWord w).input = s.input := rfl
@[simp] theorem placeWord_supplied (s : State) (w : Word) : (s.placeWord w).supplied = s.supplied := rfl
@[simp] theorem placeWord_drawn (s : State) (w : Word) : (s.placeWord w).drawn = s.drawn := rfl

/-! ## skipIf: pc only -/

@[simp] theorem skipIf_V (s : State) (c : Bool) : (s.skipIf c).V = s.V := rfl
@[simp] theorem skipIf_I (s : State) (c : Bool) : (s.skipIf c).I = s.I := rfl
theorem skipIf_pc (s : State) (c : Bool) : (s.skipIf c).pc = if c then s.pc + 4 else s.pc + 2 := rfl
@[simp] theorem skipIf_SP (s : State) (c : Bool) : (s.skipIf c).SP = s.SP := rfl
@[simp] theorem skipIf_Stack (s : State) (c : Bool) : (s.skipIf c).Stack = s.Stack := rfl
@[simp] theorem skipIf_DT (s : State) (c : Bool) : (s.skipIf c).DT = s.DT := rfl
@[simp] theorem skipIf_ST (s : State) (c : Bool) : (s.skipIf c).ST = s.ST := rfl
@[simp] theorem skipIf_Mem (s : State) (c : Bool) : (s.skipIf c).Mem = s.Mem := rfl
@[simp] theorem skipIf_Pix (s : State) (c : Bool) : (s.skipIf c).Pix = s.Pix := rfl
@[simp] theorem skipIf_Dirty (s : State) (c : Bool) : (s.skipIf c).Dirty = s.Dirty := rfl
@[simp] theorem skipIf_halted (s : State) (c : Bool) : (s.skipIf c).halted = s.halted := rfl
@[simp] theorem skipIf_input (s : State) (c : Bool) : (s.skipIf c).input = s.input := rfl
@[simp] theorem skipIf_supplied (s : State) (c : Bool) : (s.skipIf c).supplied = s.supplied := rfl
@[simp] theorem skipIf_drawn (s : State) (c : Bool) : (s.skipIf c).drawn = s.drawn := rfl

/-! ## tickTimers: DT and ST only -/

@[simp] theorem tickTimers_V (s : State) : s.tickTimers.V = s.V := rfl
@[simp] theorem tickTimers_I (s : State) : s.tickTimers.I = s.I := rfl
@[simp] theorem tickTimers_pc (s : State) : s.tickTimers.pc = s.pc := rfl
@[simp] theorem tickTimers_SP (s : State) : s.tickTimers.SP = s.SP := rfl
@[simp] theorem tickTimers_Stack (s : State) : s.tickTimers.Stack = s.Stack := rfl
theorem tickTimers_DT (s : State) : s.tickTimers.DT = if s.input.dec then countDown s.DT else s.DT := rfl
theorem tickTimers_ST (s : State) : s.tickTimers.ST = if s.input.dec then countDown s.ST else s.ST := rfl
@[simp] theorem tickTimers_Mem (s : State) : s.tickTimers.Mem = s.Mem := rfl
@[simp] theorem tickTimers_Pix (s : State) : s.tickTimers.Pix = s.Pix := rfl
@[simp] theorem tickTimers_Dirty (s : State) : s.tickTimers.Dirty = s.Dirty := rfl
@[simp] theorem tickTimers_halted (s : State) : s.tickTimers.halted = s.halted := rfl
@[simp] theorem tickTimers_input (s : State) : s.tickTimers.input = s.input := rfl
@[simp] theorem tickTimers_supplied (s : State) : s.tickTimers.supplied = s.supplied := rfl
@[simp] theorem tickTimers_drawn (s : State) : s.tickTimers.drawn = s.drawn := rfl

/-! ## nextInput: the model's own input fields only -/

@[simp] theorem nextInput_V (s : State) : s.nextInput.V = s.V := by
  unfold State.nextInput; split <;> rfl
@[simp] theorem nextInput_I (s : State) : s.nextInput.I = s.I := by
  unfold State.nextInput; split <;> rfl
@[simp] theorem nextInput_pc (s : State) : s.nextInput.pc = s.pc := by
  unfold State.nextInput; split <;> rfl
@[simp] theorem nextInput_SP (s : State) : s.nextInput.SP = s.SP := by
  unfold State.nextInput; split <;> rfl
@[simp] theorem nextInput_Stack (s : State) : s.nextInput.Stack = s.Stack := by
  unfold State.nextInput; split <;> rfl
@[simp] theorem nextInput_DT (s : State) : s.nextInput.DT = s.DT := by
  unfold State.nextInput; split <;> rfl
@[simp] theorem nextInput_ST (s : State) : s.nextInput.ST = s.ST := by
  unfold State.nextInput; split <;> rfl
@[simp] theorem nextInput_Mem (s : State) : s.nextInput.Mem = s.Mem := by
  unfold State.nextInput; split <;> rfl
@[simp] theorem nextInput_Pix (s : State) : s.nextInput.Pix = s.Pix := by
  unfold State.nextInput; split <;> rfl
@[simp] theorem nextInput_Dirty (s : State) : s.nextInput.Dirty = s.Dirty := by
  unfold State.nextInput; split <;> rfl
@[simp] theorem nextInput_halted (s : State) : s.nextInput.halted = s.halted := by
  unfold State.nextInput; split <;> rfl

/-! ## Reads of a general register -/

theorem reg_setReg (s : State) (x r : Reg) (v : Byte) : (s.setReg x v).reg r = if r = x then v else s.reg r := by
  unfold State.reg State.setReg
  rw [Vector.getElem_set]
  by_cases h : r = x
  · simp [h]
  · have hn : ¬ x.toNat = r.toNat := fun e => h (BitVec.eq_of_toNat_eq e.symm)
    simp [h, hn]

@[simp] theorem reg_setReg_self (s : State) (x : Reg) (v : Byte) : (s.setReg x v).reg x = v := by
  simp [reg_setReg]

theorem reg_setReg_of_ne (s : State) {x r : Reg} (v : Byte) (h : r ≠ x) : (s.setReg x v).reg r = s.reg r := by
  simp [reg_setReg, h]

/-- Reading a register depends on V alone. -/
theorem reg_of_V {s t : State} (h : t.V = s.V) (r : Reg) : t.reg r = s.reg r := by
  unfold State.reg; simp only [h]

@[simp] theorem reg_setI (s : State) (v : Word) (r : Reg) : (s.setI v).reg r = s.reg r := rfl
@[simp] theorem reg_setPc (s : State) (v : Word) (r : Reg) : (s.setPc v).reg r = s.reg r := rfl
@[simp] theorem reg_advance (s : State) (r : Reg) : s.advance.reg r = s.reg r := rfl
@[simp] theorem reg_skipIf (s : State) (c : Bool) (r : Reg) : (s.skipIf c).reg r = s.reg r := rfl
@[simp] theorem reg_tickTimers (s : State) (r : Reg) : s.tickTimers.reg r = s.reg r := rfl
@[simp] theorem reg_hostTurn (s : State) (r : Reg) : s.hostTurn.reg r = s.reg r := rfl
@[simp] theorem reg_nextInput (s : State) (r : Reg) : s.nextInput.reg r = s.reg r := reg_of_V (by simp) r

/-! ## Reads of memory, of a pixel and of a key depend on one field each -/

theorem byteAt_of_Mem {s t : State} (h : t.Mem = s.Mem) (a : Nat) : t.byteAt a = s.byteAt a := by
  unfold State.byteAt; rw [h]

theorem pixel_of_Pix {s t : State} (h : t.Pix = s.Pix) (r : Fin 32) (c : Fin 64) : t.pixel r c = s.pixel r c := by
  unfold State.pixel; rw [h]

theorem keyDown_of_input {s t : State} (h : t.input = s.input) (k : Nibble) : t.keyDown k = s.keyDown k := by
  unfold State.keyDown; simp only [h]

end Sys2Proof.Machine
end

