-- ==== Sys2Proof/Laws/Ops.lean ====
section
/-! SUPPORT. What each shared operation does, once: raising, the stack, bounds, stores, register ranges, keys, timers. -/

namespace Sys2Proof.Machine

/-! ## Raising an error (60_exceptions.md R209) -/

/-- `raise` never answers a next state. -/
theorem raise_ne_next (e : State → Fault) (s t : State) : raise e s ≠ .next t := by simp [raise]

/-- `raise` answers the error with the state as it was, but halted. -/
theorem raise_eq (e : State → Fault) (s : State) : raise e s = .fault (e { s with halted := true }) := rfl

/-! ## The call stack (10_state.md R24) -/

theorem push_eq_some {s t : State} {v : Word} (h : s.push v = some t) :
    ∃ hs : s.SP.val < 16, t = { s with Stack := s.Stack.set s.SP.val v hs, SP := ⟨s.SP.val + 1, by omega⟩ } := by
  unfold State.push at h
  split at h
  · rename_i hs; exact ⟨hs, by simpa using h.symm⟩
  · cases h

theorem push_eq_none {s : State} {v : Word} : s.push v = none ↔ s.SP.val = 16 := by
  unfold State.push
  split
  · simp; omega
  · simp; omega

theorem pop_eq_some {s t : State} {v : Word} (h : s.pop = some (v, t)) :
    ∃ hs : 0 < s.SP.val, v = s.Stack[s.SP.val - 1] ∧ t = { s with SP := ⟨s.SP.val - 1, by omega⟩ } := by
  unfold State.pop at h
  split at h
  · rename_i hs
    simp only [Option.some.injEq, Prod.mk.injEq] at h
    exact ⟨hs, h.1.symm, h.2.symm⟩
  · cases h

theorem pop_eq_none {s : State} : s.pop = none ↔ s.SP.val = 0 := by
  unfold State.pop
  split
  · simp; omega
  · simp; omega

/-! ## Bounds and stores (20_memory.md R55, R53) -/

theorem inBounds_iff (s : State) (n : Nat) : s.inBounds n = true ↔ s.I.toNat + n ≤ 4096 := by
  simp [State.inBounds]

/-- A storing instruction that goes on wrote its bytes at I and advanced, nothing else; its bytes fitted. -/
theorem storeAtI_eq_next {i : Instr} {vs : List Byte} {s t : State} (h : storeAtI i vs s = .next t) :
    s.I.toNat + vs.length ≤ 4096 ∧ t = { s with Mem := Memory.writeBytes s.Mem s.I.toNat vs, pc := s.pc + 2 } := by
  unfold storeAtI at h
  split at h
  · rename_i hb
    refine ⟨(inBounds_iff s _).1 hb, ?_⟩
    injection h with h
    exact h.symm
  · exact absurd h (raise_ne_next _ _ _)

/-- One that stops had bytes that do not fit, and reports them. -/
theorem storeAtI_eq_fault {i : Instr} {vs : List Byte} {s : State} {f : Fault} (h : storeAtI i vs s = .fault f) :
    4096 < s.I.toNat + vs.length ∧
      f = .memoryBoundsError s.pc (encode i) s.I vs.length { s with halted := true } := by
  unfold storeAtI at h
  split at h
  · cases h
  · rename_i hb
    rw [inBounds_iff] at hb
    injection h with h
    exact ⟨by omega, h.symm⟩

@[simp] theorem bcdDigits_length (v : Byte) : (bcdDigits v).length = 3 := rfl

@[simp] theorem regRange_length (s : State) (x : Reg) : (s.regRange x).length = x.toNat + 1 := by
  simp [State.regRange]

theorem regRange_get (s : State) (x : Reg) (k : Nat) (h : k < (s.regRange x).length) :
    (s.regRange x)[k] = s.reg (BitVec.ofNat 4 k) := by
  simp [State.regRange]

/-! ## Register ranges (42_index_and_memory.md R145) -/

/-- Every field but V is kept by a range load. -/
theorem loadRange_eq (s : State) (n : Nat) : s.loadRange n = { s with V := (s.loadRange n).V } := by
  induction n with
  | zero => rfl
  | succ n ih =>
    conv_lhs => rw [State.loadRange, ih]
    rfl

@[simp] theorem loadRange_I (s : State) (n : Nat) : (s.loadRange n).I = s.I := by rw [loadRange_eq]
@[simp] theorem loadRange_pc (s : State) (n : Nat) : (s.loadRange n).pc = s.pc := by rw [loadRange_eq]
@[simp] theorem loadRange_SP (s : State) (n : Nat) : (s.loadRange n).SP = s.SP := by rw [loadRange_eq]
@[simp] theorem loadRange_Stack (s : State) (n : Nat) : (s.loadRange n).Stack = s.Stack := by rw [loadRange_eq]
@[simp] theorem loadRange_DT (s : State) (n : Nat) : (s.loadRange n).DT = s.DT := by rw [loadRange_eq]
@[simp] theorem loadRange_ST (s : State) (n : Nat) : (s.loadRange n).ST = s.ST := by rw [loadRange_eq]
@[simp] theorem loadRange_Mem (s : State) (n : Nat) : (s.loadRange n).Mem = s.Mem := by rw [loadRange_eq]
@[simp] theorem loadRange_Pix (s : State) (n : Nat) : (s.loadRange n).Pix = s.Pix := by rw [loadRange_eq]
@[simp] theorem loadRange_Dirty (s : State) (n : Nat) : (s.loadRange n).Dirty = s.Dirty := by rw [loadRange_eq]
@[simp] theorem loadRange_halted (s : State) (n : Nat) : (s.loadRange n).halted = s.halted := by rw [loadRange_eq]
@[simp] theorem loadRange_input (s : State) (n : Nat) : (s.loadRange n).input = s.input := by rw [loadRange_eq]
@[simp] theorem loadRange_supplied (s : State) (n : Nat) : (s.loadRange n).supplied = s.supplied := by rw [loadRange_eq]
@[simp] theorem loadRange_drawn (s : State) (n : Nat) : (s.loadRange n).drawn = s.drawn := by rw [loadRange_eq]

/-- Register r gets byte r of the run when it is among the first n, and is kept otherwise. -/
theorem loadRange_reg (s : State) (n : Nat) (hn : n ≤ 16) (r : Reg) :
    (s.loadRange n).reg r = if r.toNat < n then s.byteAt (s.I.toNat + r.toNat) else s.reg r := by
  induction n with
  | zero => simp [State.loadRange]
  | succ n ih =>
    have e : (BitVec.ofNat 4 n).toNat = n := by simp; omega
    rw [State.loadRange, reg_setReg, ih (by omega)]
    by_cases h : r = BitVec.ofNat 4 n
    · have hr : r.toNat = n := by rw [h, e]
      rw [if_pos h, if_pos (by omega), hr]; rfl
    · have hr : r.toNat ≠ n := fun e' => h (BitVec.eq_of_toNat_eq (by rw [e, e']))
      rw [if_neg h]
      by_cases h2 : r.toNat < n
      · rw [if_pos h2, if_pos (by omega)]
      · rw [if_neg h2, if_neg (by omega)]

/-! ## Keys (44_timers_and_keys.md R180, R183) -/

theorem keyOf_eq_some {v : Byte} {k : Nibble} (h : keyOf v = some k) : v.toNat ≤ 15 ∧ k.toNat = v.toNat := by
  unfold keyOf at h
  split at h
  · rename_i hv
    injection h with h
    subst h
    refine ⟨hv, ?_⟩
    simp; omega
  · cases h

theorem keyOf_eq_none {v : Byte} : keyOf v = none ↔ 15 < v.toNat := by
  unfold keyOf
  split <;> simp <;> omega

/-- The key found is down, and no lower one is. -/
theorem lowestKey_eq_some {s : State} {k : Nibble} (h : s.lowestKey = some k) :
    s.keyDown k = true ∧ ∀ j : Nibble, j.toNat < k.toNat → s.keyDown j = false := by
  unfold State.lowestKey at h
  obtain ⟨hk, as, bs, hab, hno⟩ := List.find?_eq_some_iff_append.1 h
  refine ⟨hk, fun j hj => ?_⟩
  have hl : as.length < 16 := by
    have := congrArg List.length hab
    simp [Config.numKeys] at this; omega
  have hget : ∀ n, n < 16 → (as ++ k :: bs)[n]? = some (BitVec.ofNat 4 n) := by
    intro n hn
    rw [← hab, List.getElem?_map, List.getElem?_range (by simpa [Config.numKeys] using hn)]
    rfl
  have hlen : as.length = k.toNat := by
    have h1 := hget as.length hl
    rw [List.getElem?_append_right (Nat.le_refl _), Nat.sub_self] at h1
    have h2 : k = BitVec.ofNat 4 as.length := by simpa using h1
    rw [h2]; simp; omega
  have hmem : j ∈ as := by
    have h1 := hget j.toNat j.isLt
    rw [List.getElem?_append_left (by omega), List.getElem?_eq_some_iff] at h1
    obtain ⟨hj', h1⟩ := h1
    rw [BitVec.ofNat_toNat, BitVec.setWidth_eq] at h1
    rw [← h1]; exact List.getElem_mem hj'
  simpa using hno j hmem

/-- None is found exactly when every key is up. -/
theorem lowestKey_eq_none {s : State} : s.lowestKey = none ↔ ∀ k : Nibble, s.keyDown k = false := by
  unfold State.lowestKey
  rw [List.find?_eq_none]
  constructor
  · intro h k
    have hk : k ∈ (List.range Config.numKeys).map (BitVec.ofNat 4) :=
      List.mem_map.2 ⟨k.toNat, by simpa using k.isLt, by simp⟩
    simpa using h k hk
  · intro h k _
    simp [h k]

/-! ## Timers (60_exceptions.md R210) -/

/-- The decrement saturates at 0. -/
theorem countDown_toNat (v : Byte) : (countDown v).toNat = v.toNat - 1 := by
  unfold countDown
  split
  · rename_i h; subst h; rfl
  · rename_i h
    have : v.toNat ≠ 0 := fun e => h (BitVec.eq_of_toNat_eq e)
    rw [BitVec.toNat_sub_of_le (by rw [BitVec.le_def]; show 1 ≤ v.toNat; omega)]
    rfl

/-! ## Arithmetic (41_alu.md R126) -/

theorem addByte_toNat (v u : Byte) : (addByte v u).toNat = (v.toNat + u.toNat) % 256 := by
  simp [addByte]

theorem subByte_toNat (v u : Byte) : (subByte v u).toNat = (v.toNat + 256 - u.toNat) % 256 := by
  simp [subByte]

theorem zextByte_toNat (v : Byte) : (zextByte v).toNat = v.toNat := by
  have := v.isLt
  simp [zextByte]; omega

theorem zextImm_toNat (n : Imm12) : (zextImm n).toNat = n.toNat := by
  have := n.isLt
  simp [zextImm]; omega

end Sys2Proof.Machine
end

