-- ==== Sys2Proof/Laws/Exec.lean ====
section
/-! SUPPORT. What the meanings that can stop, wait or branch answer when they go on; the others are one unconditional
next state each, as their definitions read. -/

namespace Sys2Proof.Machine

theorem execRet_eq_next {s t : State} (h : execRet s = .next t) :
    ∃ hs : 0 < s.SP.val,
      t = { s with SP := ⟨s.SP.val - 1, by omega⟩, pc := s.Stack[s.SP.val - 1] } := by
  unfold execRet at h
  split at h
  · rename_i hp
    obtain ⟨hs, rfl, rfl⟩ := pop_eq_some hp
    injection h with h
    exact ⟨hs, h.symm⟩
  · exact absurd h (raise_ne_next _ _ _)

theorem execCall_eq_next {nnn : Imm12} {s t : State} (h : execCall nnn s = .next t) :
    ∃ hs : s.SP.val < 16,
      t = { s with Stack := s.Stack.set s.SP.val (s.pc + 2) hs, SP := ⟨s.SP.val + 1, by omega⟩, pc := zextImm nnn } := by
  unfold execCall at h
  split at h
  · rename_i hp
    obtain ⟨hs, rfl⟩ := push_eq_some hp
    injection h with h
    exact ⟨hs, h.symm⟩
  · exact absurd h (raise_ne_next _ _ _)

theorem execLoadRegs_eq_next {x : Reg} {s t : State} (h : execLoadRegs x s = .next t) :
    s.I.toNat + (x.toNat + 1) ≤ 4096 ∧ t = (s.loadRange (x.toNat + 1)).advance := by
  unfold execLoadRegs at h
  split at h
  · rename_i hb
    injection h with h
    exact ⟨(inBounds_iff s _).1 hb, h.symm⟩
  · exact absurd h (raise_ne_next _ _ _)

theorem execSkp_eq_next {x : Reg} {s t : State} (h : execSkp x s = .next t) :
    ∃ k, keyOf (s.reg x) = some k ∧ t = s.skipIf (s.keyDown k) := by
  unfold execSkp at h
  split at h
  · rename_i k hk
    injection h with h
    exact ⟨k, hk, h.symm⟩
  · exact absurd h (raise_ne_next _ _ _)

theorem execSknp_eq_next {x : Reg} {s t : State} (h : execSknp x s = .next t) :
    ∃ k, keyOf (s.reg x) = some k ∧ t = s.skipIf (!s.keyDown k) := by
  unfold execSknp at h
  split at h
  · rename_i k hk
    injection h with h
    exact ⟨k, hk, h.symm⟩
  · exact absurd h (raise_ne_next _ _ _)

theorem execLdVxK_cases {x : Reg} (s : State) :
    (∃ k, s.lowestKey = some k ∧ execLdVxK x s = .next (s.setReg x (k.setWidth 8)).advance) ∨
      (s.lowestKey = none ∧ execLdVxK x s = .next s) := by
  unfold execLdVxK
  cases s.lowestKey with
  | some k => exact .inl ⟨k, rfl, rfl⟩
  | none => exact .inr ⟨rfl, rfl⟩

theorem execDrw_eq_next {x y : Reg} {n : Nibble} {s t : State} (h : execDrw x y n s = .next t) :
    s.I.toNat + n.toNat ≤ 4096 ∧ ∃ g c,
      blitRows (s.reg x).toNat (s.reg y).toNat (Memory.readBytes s.Mem (s.dataAddr 0) n.toNat) (s.Pix, false) = (g, c) ∧
      t = ({ s with Pix := g, Dirty := true }.setReg VF (flagByte c)).advance := by
  unfold execDrw at h
  split at h
  · rename_i hb
    injection h with h
    exact ⟨(inBounds_iff s _).1 hb, _, _, rfl, h.symm⟩
  · exact absurd h (raise_ne_next _ _ _)

end Sys2Proof.Machine
end

