-- ==== Sys2Proof/Laws/PerInstr.lean ====
section
/-! SUPPORT. Statements made instruction by instruction. RowMatches: the word of an instruction agrees with the match
and mask of its row of spec/opcode_table.json, so no fixed bit of an encoding is wrong (30_encoding.md R75). The
numbers below are the table's, apart from the encoder's. -/

namespace Sys2Proof.Laws

/-- The mask of an instruction's row: which bits are fixed. -/
def rowMask : Instr → Word
  | .cls => 0xFFFF#16
  | .ret => 0xFFFF#16
  | .sys _ => 0xF000#16
  | .jp _ => 0xF000#16
  | .call _ => 0xF000#16
  | .seImm _ _ => 0xF000#16
  | .sneImm _ _ => 0xF000#16
  | .seReg _ _ => 0xF00F#16
  | .ldImm _ _ => 0xF000#16
  | .addImm _ _ => 0xF000#16
  | .ldReg _ _ => 0xF00F#16
  | .orReg _ _ => 0xF00F#16
  | .andReg _ _ => 0xF00F#16
  | .xorReg _ _ => 0xF00F#16
  | .addReg _ _ => 0xF00F#16
  | .sub _ _ => 0xF00F#16
  | .shr _ _ => 0xF00F#16
  | .subn _ _ => 0xF00F#16
  | .shl _ _ => 0xF00F#16
  | .sneReg _ _ => 0xF00F#16
  | .ldI _ => 0xF000#16
  | .jpV0 _ => 0xF000#16
  | .rnd _ _ => 0xF000#16
  | .drw _ _ _ => 0xF000#16
  | .skp _ => 0xF0FF#16
  | .sknp _ => 0xF0FF#16
  | .ldVxDT _ => 0xF0FF#16
  | .ldVxK _ => 0xF0FF#16
  | .ldDT _ => 0xF0FF#16
  | .ldST _ => 0xF0FF#16
  | .addI _ => 0xF0FF#16
  | .ldF _ => 0xF0FF#16
  | .ldB _ => 0xF0FF#16
  | .storeRegs _ => 0xF0FF#16
  | .loadRegs _ => 0xF0FF#16

/-- The match of an instruction's row: the fixed bits' values. -/
def rowMatch : Instr → Word
  | .cls => 0x00E0#16
  | .ret => 0x00EE#16
  | .sys _ => 0x0000#16
  | .jp _ => 0x1000#16
  | .call _ => 0x2000#16
  | .seImm _ _ => 0x3000#16
  | .sneImm _ _ => 0x4000#16
  | .seReg _ _ => 0x5000#16
  | .ldImm _ _ => 0x6000#16
  | .addImm _ _ => 0x7000#16
  | .ldReg _ _ => 0x8000#16
  | .orReg _ _ => 0x8001#16
  | .andReg _ _ => 0x8002#16
  | .xorReg _ _ => 0x8003#16
  | .addReg _ _ => 0x8004#16
  | .sub _ _ => 0x8005#16
  | .shr _ _ => 0x8006#16
  | .subn _ _ => 0x8007#16
  | .shl _ _ => 0x800E#16
  | .sneReg _ _ => 0x9000#16
  | .ldI _ => 0xA000#16
  | .jpV0 _ => 0xB000#16
  | .rnd _ _ => 0xC000#16
  | .drw _ _ _ => 0xD000#16
  | .skp _ => 0xE09E#16
  | .sknp _ => 0xE0A1#16
  | .ldVxDT _ => 0xF007#16
  | .ldVxK _ => 0xF00A#16
  | .ldDT _ => 0xF015#16
  | .ldST _ => 0xF018#16
  | .addI _ => 0xF01E#16
  | .ldF _ => 0xF029#16
  | .ldB _ => 0xF033#16
  | .storeRegs _ => 0xF055#16
  | .loadRegs _ => 0xF065#16

theorem packNNN_and_class (a : Nibble) (nnn : Imm12) : packNNN a nnn &&& 0xF000#16 = packNNN a 0 := by
  show (a ++ nnn) &&& (0xF#4 ++ 0x000#12) = a ++ 0x000#12
  rw [BitVec.and_append]
  simp only [BitVec.and_zero]
  rw [show a &&& 0xF#4 = a by revert a; decide]

theorem packXKK_and_class (a : Nibble) (x : Reg) (kk : Byte) : packXKK a x kk &&& 0xF000#16 = packXKK a 0 0 := by
  show ((a ++ x) ++ kk) &&& ((0xF#4 ++ 0x0#4) ++ 0x00#8) = (a ++ 0x0#4) ++ 0x00#8
  rw [BitVec.and_append, BitVec.and_append]
  simp only [BitVec.and_zero]
  rw [show a &&& 0xF#4 = a by revert a; decide]

theorem packXKK_and_low (a : Nibble) (x : Reg) (kk : Byte) : packXKK a x kk &&& 0xF0FF#16 = packXKK a 0 kk := by
  show ((a ++ x) ++ kk) &&& ((0xF#4 ++ 0x0#4) ++ 0xFF#8) = (a ++ 0x0#4) ++ kk
  rw [BitVec.and_append, BitVec.and_append]
  simp only [BitVec.and_zero]
  rw [show a &&& 0xF#4 = a by revert a; decide, show kk &&& 0xFF#8 = kk by revert kk; decide]

theorem packXYN_and_low (a : Nibble) (x y : Reg) (b : Nibble) : packXYN a x y b &&& 0xF00F#16 = packXYN a 0 0 b := by
  show (((a ++ x) ++ y) ++ b) &&& (((0xF#4 ++ 0x0#4) ++ 0x0#4) ++ 0xF#4) = ((a ++ 0x0#4) ++ 0x0#4) ++ b
  rw [BitVec.and_append, BitVec.and_append, BitVec.and_append]
  simp only [BitVec.and_zero]
  rw [show a &&& 0xF#4 = a by revert a; decide, show b &&& 0xF#4 = b by revert b; decide]

theorem packXYN_and_class (a : Nibble) (x y : Reg) (b : Nibble) : packXYN a x y b &&& 0xF000#16 = packXYN a 0 0 0 := by
  show (((a ++ x) ++ y) ++ b) &&& (((0xF#4 ++ 0x0#4) ++ 0x0#4) ++ 0x0#4) = ((a ++ 0x0#4) ++ 0x0#4) ++ 0x0#4
  rw [BitVec.and_append, BitVec.and_append, BitVec.and_append]
  simp only [BitVec.and_zero]
  rw [show a &&& 0xF#4 = a by revert a; decide]

/-- The word of `i` has its row's fixed bits. -/
def RowMatches.Statement (i : Instr) : Prop := encode i &&& rowMask i = rowMatch i

theorem RowMatches.cls : RowMatches.Statement .cls := rfl
theorem RowMatches.ret : RowMatches.Statement .ret := rfl
theorem RowMatches.sys (nnn : Imm12) : RowMatches.Statement (.sys nnn) := packNNN_and_class _ _
theorem RowMatches.jp (nnn : Imm12) : RowMatches.Statement (.jp nnn) := packNNN_and_class _ _
theorem RowMatches.call (nnn : Imm12) : RowMatches.Statement (.call nnn) := packNNN_and_class _ _
theorem RowMatches.seImm (x : Reg) (kk : Byte) : RowMatches.Statement (.seImm x kk) := packXKK_and_class _ _ _
theorem RowMatches.sneImm (x : Reg) (kk : Byte) : RowMatches.Statement (.sneImm x kk) := packXKK_and_class _ _ _
theorem RowMatches.seReg (x : Reg) (y : Reg) : RowMatches.Statement (.seReg x y) := packXYN_and_low _ _ _ _
theorem RowMatches.ldImm (x : Reg) (kk : Byte) : RowMatches.Statement (.ldImm x kk) := packXKK_and_class _ _ _
theorem RowMatches.addImm (x : Reg) (kk : Byte) : RowMatches.Statement (.addImm x kk) := packXKK_and_class _ _ _
theorem RowMatches.ldReg (x : Reg) (y : Reg) : RowMatches.Statement (.ldReg x y) := packXYN_and_low _ _ _ _
theorem RowMatches.orReg (x : Reg) (y : Reg) : RowMatches.Statement (.orReg x y) := packXYN_and_low _ _ _ _
theorem RowMatches.andReg (x : Reg) (y : Reg) : RowMatches.Statement (.andReg x y) := packXYN_and_low _ _ _ _
theorem RowMatches.xorReg (x : Reg) (y : Reg) : RowMatches.Statement (.xorReg x y) := packXYN_and_low _ _ _ _
theorem RowMatches.addReg (x : Reg) (y : Reg) : RowMatches.Statement (.addReg x y) := packXYN_and_low _ _ _ _
theorem RowMatches.sub (x : Reg) (y : Reg) : RowMatches.Statement (.sub x y) := packXYN_and_low _ _ _ _
theorem RowMatches.shr (x : Reg) (y : Reg) : RowMatches.Statement (.shr x y) := packXYN_and_low _ _ _ _
theorem RowMatches.subn (x : Reg) (y : Reg) : RowMatches.Statement (.subn x y) := packXYN_and_low _ _ _ _
theorem RowMatches.shl (x : Reg) (y : Reg) : RowMatches.Statement (.shl x y) := packXYN_and_low _ _ _ _
theorem RowMatches.sneReg (x : Reg) (y : Reg) : RowMatches.Statement (.sneReg x y) := packXYN_and_low _ _ _ _
theorem RowMatches.ldI (nnn : Imm12) : RowMatches.Statement (.ldI nnn) := packNNN_and_class _ _
theorem RowMatches.jpV0 (nnn : Imm12) : RowMatches.Statement (.jpV0 nnn) := packNNN_and_class _ _
theorem RowMatches.rnd (x : Reg) (kk : Byte) : RowMatches.Statement (.rnd x kk) := packXKK_and_class _ _ _
theorem RowMatches.drw (x : Reg) (y : Reg) (n : Nibble) : RowMatches.Statement (.drw x y n) :=
  packXYN_and_class _ _ _ _
theorem RowMatches.skp (x : Reg) : RowMatches.Statement (.skp x) := packXKK_and_low _ _ _
theorem RowMatches.sknp (x : Reg) : RowMatches.Statement (.sknp x) := packXKK_and_low _ _ _
theorem RowMatches.ldVxDT (x : Reg) : RowMatches.Statement (.ldVxDT x) := packXKK_and_low _ _ _
theorem RowMatches.ldVxK (x : Reg) : RowMatches.Statement (.ldVxK x) := packXKK_and_low _ _ _
theorem RowMatches.ldDT (x : Reg) : RowMatches.Statement (.ldDT x) := packXKK_and_low _ _ _
theorem RowMatches.ldST (x : Reg) : RowMatches.Statement (.ldST x) := packXKK_and_low _ _ _
theorem RowMatches.addI (x : Reg) : RowMatches.Statement (.addI x) := packXKK_and_low _ _ _
theorem RowMatches.ldF (x : Reg) : RowMatches.Statement (.ldF x) := packXKK_and_low _ _ _
theorem RowMatches.ldB (x : Reg) : RowMatches.Statement (.ldB x) := packXKK_and_low _ _ _
theorem RowMatches.storeRegs (x : Reg) : RowMatches.Statement (.storeRegs x) := packXKK_and_low _ _ _
theorem RowMatches.loadRegs (x : Reg) : RowMatches.Statement (.loadRegs x) := packXKK_and_low _ _ _

end Sys2Proof.Laws
end

