-- ==== Sys2Proof/Laws/Safety.lean ====
section
/-! SUPPORT. The small lemmas of the terms that statements use. -/

namespace Sys2Proof.Machine

@[simp] theorem withFinal_final (f : Fault) (t : State) : (f.withFinal t).final = t := by cases f <;> rfl
@[simp] theorem withFinal_code (f : Fault) (t : State) : (f.withFinal t).code = f.code := by cases f <;> rfl
@[simp] theorem withFinal_withFinal (f : Fault) (t u : State) : (f.withFinal t).withFinal u = f.withFinal u := by
  cases f <;> rfl
@[simp] theorem withFinal_self (f : Fault) : f.withFinal f.final = f := by cases f <;> rfl

/-- Outside the bytes an instruction stores, memory is as it was. -/
theorem byteAfter_of_lt {s : State} {i : Instr} {a : Nat} (h : a < s.I.toNat) : byteAfter s i a = (s.byteAt a).toNat := by
  unfold byteAfter
  rw [if_neg (by omega)]

theorem byteAfter_of_le {s : State} {i : Instr} {a : Nat} (h : s.I.toNat + storedBytes i ≤ a) :
    byteAfter s i a = (s.byteAt a).toNat := by
  unfold byteAfter
  rw [if_neg (by omega)]

/-- Inside them, it is the stored byte. -/
theorem byteAfter_stored {s : State} {i : Instr} {k : Nat} (h : k < storedBytes i) :
    byteAfter s i (s.I.toNat + k) = storedByte s i k := by
  unfold byteAfter
  rw [if_pos (by omega), Nat.add_sub_cancel_left]

end Sys2Proof.Machine
end

