-- ==== Sys2Proof/Laws/Step.lean ====
section
/-! SUPPORT. What one step can do: its three outcomes taken apart (30_encoding.md R90), and the fetch of a placed
word. -/

namespace Sys2Proof.Machine

/-- The state the tick's fetch, decode and execution see: after the host's turn and the timers. -/
abbrev State.atFetch (s : State) : State := s.hostTurn.tickTimers

theorem fetch_eq_some {s : State} {w : Word} (h : s.fetch = some w) :
    s.pc.toNat ≤ 0xFFE ∧ w = wordOfBytes (s.byteAt s.pc.toNat) (s.byteAt (s.pc.toNat + 1)) := by
  unfold State.fetch at h
  split at h
  · rename_i hp; exact ⟨by omega, by injection h with h; exact h.symm⟩
  · cases h

theorem fetch_eq_none {s : State} : s.fetch = none ↔ 0xFFE < s.pc.toNat := by
  unfold State.fetch
  split <;> simp <;> omega

/-- Fetching depends on pc and memory alone. -/
theorem fetch_congr {s t : State} (hp : t.pc = s.pc) (hm : t.Mem = s.Mem) : t.fetch = s.fetch := by
  unfold State.fetch State.byteAt; rw [hp, hm]

@[simp] theorem fetch_atFetch (s : State) : s.atFetch.fetch = s.fetch := fetch_congr (by simp) (by simp)

/-- A step that goes on fetched a word, decoded it, and executed it. -/
theorem step_eq_next {s t : State} (h : step s = .next t) :
    s.halted = false ∧ ∃ w i u, s.fetch = some w ∧ decode w = .ok i ∧ exec i s.atFetch = .next u ∧
      t = u.nextInput := by
  unfold step runTick at h
  split at h
  · cases h
  · rename_i hh
    refine ⟨by simpa using hh, ?_⟩
    unfold fetchDecodeExecute at h
    split at h
    · cases h
    · rename_i w hw
      split at h
      · cases h
      · rename_i i hi
        rw [fetch_atFetch] at hw
        refine ⟨w, i, ?_⟩
        cases he : exec i s.atFetch with
        | next u => rw [he] at h; injection h with h; exact ⟨u, hw, hi, rfl, h.symm⟩
        | fault f => rw [he] at h; cases h
        | refused r => rw [he] at h; cases h

/-- A step that stops with an error: fetch, decode or the instruction raised it. -/
theorem step_eq_fault {s : State} {f : Fault} (h : step s = .fault f) :
    s.halted = false ∧
      ((s.fetch = none ∧ f = .pcOutOfBounds s.pc { s.atFetch with halted := true }) ∨
       (∃ w r, s.fetch = some w ∧ decode w = .error r ∧ f = .invalidInstruction w s.pc { s.atFetch with halted := true }) ∨
       ∃ w i, s.fetch = some w ∧ decode w = .ok i ∧ exec i s.atFetch = .fault f) := by
  unfold step runTick at h
  split at h
  · cases h
  · rename_i hh
    refine ⟨by simpa using hh, ?_⟩
    unfold fetchDecodeExecute at h
    split at h
    · rename_i hw
      rw [fetch_atFetch] at hw
      injection h with h
      exact .inl ⟨hw, by simpa using h.symm⟩
    · rename_i w hw
      rw [fetch_atFetch] at hw
      split at h
      · rename_i r hr
        injection h with h
        exact .inr (.inl ⟨w, r, hw, hr, by simpa using h.symm⟩)
      · rename_i i hi
        refine .inr (.inr ⟨w, i, hw, hi, ?_⟩)
        cases he : exec i s.atFetch with
        | next u => rw [he] at h; cases h
        | fault g => rw [he] at h; injection h with h; rw [h]
        | refused r => rw [he] at h; cases h

end Sys2Proof.Machine
end

