-- ==== Sys2Proof/Tests/Slice0.lean ====
section
/-! SUPPORT. Tests on fixed values, each from the spec's words, examples and vectors (95_test_vectors.md), and a witness
for the hypotheses of each statement. -/

namespace Sys2Proof.Tests

open Sys2Proof Sys2Proof.Machine

/-! ## Helpers -/

/-- A reading of the next state, if there is one. -/
def onNext {α : Type} (r : Result) (f : State → α) : Option α :=
  match r with
  | .next t => some (f t)
  | .fault _ => none
  | .refused _ => none

/-- The error, if there is one. -/
def onFault (r : Result) : Option Fault :=
  match r with
  | .next _ => none
  | .fault f => some f
  | .refused _ => none

/-- The next state, or `d`. -/
def nextOr (d : State) (r : Result) : State :=
  match r with
  | .next t => t
  | .fault _ => d
  | .refused _ => d

/-- The default inputs of 95_test_vectors.md. -/
def quietInput : TickInput where
  keys := Vector.replicate 16 false
  dec := false
  rnd := 0
  clearDirty := false

/-- Reset, where the host has chosen the default inputs for the first tick. -/
def start : State := { State.reset with input := quietInput }

/-- That, with a word at 0x200. -/
def at200 (w : Nat) : State := start.withFetchWord 16 w

/-- Registers set. -/
def regs (l : List (Reg × Byte)) (s : State) : State := l.foldl (fun t p => t.setReg p.1 p.2) s

/-- Bytes put at an address. -/
def bytes (a : Nat) (vs : List Byte) (s : State) : State := { s with Mem := Memory.writeBytes s.Mem a vs }

/-- A pixel turned on. -/
def lit (r : Fin 32) (c : Fin 64) (s : State) : State := { s with Pix := Grid.invert s.Pix r c }

/-- The keys down. -/
def keys (l : List Nat) (s : State) : State :=
  { s with input := { s.input with keys := Vector.ofFn fun k : Fin 16 => decide (k.val ∈ l) } }

/-- The decrement strobe. -/
def strobe (s : State) : State := { s with input := { s.input with dec := true } }

/-- How many pixels are on. -/
def litCount (s : State) : Nat := (s.Pix.toList.map fun row => (row.toList.filter id).length).sum

/-! ## Well-formedness: the one check, and the terms it refuses -/

theorem test_wf_refuses_sys_0E0 : (Instr.sys 0x0E0#12).wellFormed = false := by decide
theorem test_wf_refuses_sys_0EE : (Instr.sys 0x0EE#12).wellFormed = false := by decide
theorem test_wf_takes_sys_0EF : (Instr.sys 0x0EF#12).wellFormed = true := by decide

/-! ## Decoding: one word for every row of R75, written out from its pattern -/

/-- R160: 0b0000_0000_1110_0000. -/
theorem test_decode_cls : decode 0x00E0#16 = .ok .cls := by decide
/-- R101: 0b0000_0000_1110_1110. -/
theorem test_decode_ret : decode 0x00EE#16 = .ok .ret := by decide
/-- R100: 0b0000_0001_0010_0011. -/
theorem test_decode_sys : decode 0x0123#16 = .ok (.sys 0x123#12) := by decide
/-- R102: 0b0001_0010_0000_1000. -/
theorem test_decode_jp : decode 0x1208#16 = .ok (.jp 0x208#12) := by decide
/-- R103: 0b0010_0011_0000_0000. -/
theorem test_decode_call : decode 0x2300#16 = .ok (.call 0x300#12) := by decide
/-- R104: 0b0011_0011_0100_0010. -/
theorem test_decode_seImm : decode 0x3342#16 = .ok (.seImm 0x3#4 0x42#8) := by decide
/-- R105: 0b0100_0011_0100_0010. -/
theorem test_decode_sneImm : decode 0x4342#16 = .ok (.sneImm 0x3#4 0x42#8) := by decide
/-- R106: 0b0101_0001_0010_0000. -/
theorem test_decode_seReg : decode 0x5120#16 = .ok (.seReg 0x1#4 0x2#4) := by decide
/-- R120: 0b0110_0000_0000_0101. -/
theorem test_decode_ldImm : decode 0x6005#16 = .ok (.ldImm 0x0#4 0x05#8) := by decide
/-- R121: 0b0111_0000_0000_0001. -/
theorem test_decode_addImm : decode 0x7001#16 = .ok (.addImm 0x0#4 0x01#8) := by decide
/-- R122: 0b1000_0001_0010_0000. -/
theorem test_decode_ldReg : decode 0x8120#16 = .ok (.ldReg 0x1#4 0x2#4) := by decide
/-- R123: 0b1000_0001_0010_0001. -/
theorem test_decode_orReg : decode 0x8121#16 = .ok (.orReg 0x1#4 0x2#4) := by decide
/-- R124: 0b1000_0001_0010_0010. -/
theorem test_decode_andReg : decode 0x8122#16 = .ok (.andReg 0x1#4 0x2#4) := by decide
/-- R125: 0b1000_0001_0010_0011. -/
theorem test_decode_xorReg : decode 0x8123#16 = .ok (.xorReg 0x1#4 0x2#4) := by decide
/-- R127: 0b1000_0001_0010_0100. -/
theorem test_decode_addReg : decode 0x8124#16 = .ok (.addReg 0x1#4 0x2#4) := by decide
/-- R128: 0b1000_0001_0010_0101. -/
theorem test_decode_sub : decode 0x8125#16 = .ok (.sub 0x1#4 0x2#4) := by decide
/-- R129: 0b1000_0001_0010_0110. -/
theorem test_decode_shr : decode 0x8126#16 = .ok (.shr 0x1#4 0x2#4) := by decide
/-- R130: 0b1000_0001_0010_0111. -/
theorem test_decode_subn : decode 0x8127#16 = .ok (.subn 0x1#4 0x2#4) := by decide
/-- R131: 0b1000_0001_0010_1110. -/
theorem test_decode_shl : decode 0x812E#16 = .ok (.shl 0x1#4 0x2#4) := by decide
/-- R107: 0b1001_0001_0010_0000. -/
theorem test_decode_sneReg : decode 0x9120#16 = .ok (.sneReg 0x1#4 0x2#4) := by decide
/-- R140: 0b1010_0010_1111_0000. -/
theorem test_decode_ldI : decode 0xA2F0#16 = .ok (.ldI 0x2F0#12) := by decide
/-- R109: 0b1011_0011_0000_0000. -/
theorem test_decode_jpV0 : decode 0xB300#16 = .ok (.jpV0 0x300#12) := by decide
/-- R134: 0b1100_0011_0000_1111. -/
theorem test_decode_rnd : decode 0xC30F#16 = .ok (.rnd 0x3#4 0x0F#8) := by decide
/-- R162: 0b1101_0000_0001_0010. -/
theorem test_decode_drw : decode 0xD012#16 = .ok (.drw 0x0#4 0x1#4 0x2#4) := by decide
/-- R180: 0b1110_0101_1001_1110. -/
theorem test_decode_skp : decode 0xE59E#16 = .ok (.skp 0x5#4) := by decide
/-- R181: 0b1110_0101_1010_0001. -/
theorem test_decode_sknp : decode 0xE5A1#16 = .ok (.sknp 0x5#4) := by decide
/-- R182: 0b1111_0011_0000_0111. -/
theorem test_decode_ldVxDT : decode 0xF307#16 = .ok (.ldVxDT 0x3#4) := by decide
/-- R183: 0b1111_0010_0000_1010. -/
theorem test_decode_ldVxK : decode 0xF20A#16 = .ok (.ldVxK 0x2#4) := by decide
/-- R184: 0b1111_0011_0001_0101. -/
theorem test_decode_ldDT : decode 0xF315#16 = .ok (.ldDT 0x3#4) := by decide
/-- R185: 0b1111_0011_0001_1000. -/
theorem test_decode_ldST : decode 0xF318#16 = .ok (.ldST 0x3#4) := by decide
/-- R141: 0b1111_0010_0001_1110. -/
theorem test_decode_addI : decode 0xF21E#16 = .ok (.addI 0x2#4) := by decide
/-- R142: 0b1111_1010_0010_1001. -/
theorem test_decode_ldF : decode 0xFA29#16 = .ok (.ldF 0xA#4) := by decide
/-- R143: 0b1111_1010_0011_0011. -/
theorem test_decode_ldB : decode 0xFA33#16 = .ok (.ldB 0xA#4) := by decide
/-- R144: 0b1111_0010_0101_0101. -/
theorem test_decode_storeRegs : decode 0xF255#16 = .ok (.storeRegs 0x2#4) := by decide
/-- R145: 0b1111_0010_0110_0101. -/
theorem test_decode_loadRegs : decode 0xF265#16 = .ok (.loadRegs 0x2#4) := by decide

/-- V-DEC-3. -/
theorem test_decode_class0_rest : decode 0x00EF#16 = .ok (.sys 0x0EF#12) ∧ decode 0x0000#16 = .ok (.sys 0x000#12) := by decide
/-- V-DEC-4, V-DEC-5. -/
theorem test_decode_rejects_5xyN_9xyN : decode 0x5121#16 = .error (.noHandler 0x5121#16) ∧
    decode 0x912F#16 = .error (.noHandler 0x912F#16) := by decide
/-- V-DEC-6. -/
theorem test_decode_rejects_class8 : ∀ b ∈ ([0x8#4, 0x9#4, 0xA#4, 0xB#4, 0xC#4, 0xD#4, 0xF#4] : List Nibble),
    decode (packXYN 0x8#4 0x1#4 0x2#4 b) = .error (.noHandler (packXYN 0x8#4 0x1#4 0x2#4 b)) := by decide
/-- V-DEC-7, V-DEC-8. -/
theorem test_decode_rejects_classE_classF : decode 0xE1A2#16 = .error (.noHandler 0xE1A2#16) ∧
    decode 0xF166#16 = .error (.noHandler 0xF166#16) := by decide
/-- R70: one byte is no instruction. -/
theorem test_decodeBytes_truncated : decodeBytes [0x60#8] = .error .truncated := by decide
/-- R52: the high byte stands first. -/
theorem test_decodeBytes_big_endian : decodeBytes [0x60#8, 0x05#8, 0xFF#8] = .ok (.ldImm 0x0#4 0x05#8, [0xFF#8]) := by
  decide
/-- The table's numbering: 0x6005 is LD V0, 5. -/
theorem test_decodeTableWord : decodeTableWord 16 0x6005 = some (.ldImm 0x0#4 0x05#8) := by decide

/-! ## One step on a small state, against the vectors of 95_test_vectors.md -/

/-- V-CF-1. -/
theorem test_sys : onNext (step (at200 0x0123)) (fun t => t.pc) = some 0x202 := by decide
/-- V-CF-2. -/
theorem test_ret :
    onNext (step ({ at200 0x00EE with SP := 1, Stack := start.Stack.set 0 0x204 })) (fun t => (t.pc, t.SP.val)) =
      some (0x204, 0) := by
  decide
/-- V-CF-4, S11. -/
theorem test_ret_underflow :
    (onFault (step (at200 0x00EE))).map (fun f => (f.code, f.final.pc, f.final.halted)) =
      some (5, 0x200, true) := by
  decide
/-- V-CF-5. -/
theorem test_jp : onNext (step (at200 0x1208)) (fun t => t.pc) = some 0x208 := by decide
/-- V-CF-9. -/
theorem test_call :
    onNext (step (at200 0x2300)) (fun t => (t.pc, t.SP.val, t.Stack[0])) =
      some (0x300, 1, 0x202) := by
  decide
/-- V-CF-10. -/
theorem test_call_overflow :
    (onFault (step { at200 0x2300 with SP := 16 })).map (fun f => (f.code, f.final.SP.val)) =
      some (4, 16) := by
  decide
/-- V-CF-12. -/
theorem test_seImm_skips : onNext (step (regs [(3, 0x42)] (at200 0x3342))) (fun t => t.pc) = some 0x204 := by decide
/-- V-CF-13. -/
theorem test_seImm_falls_through :
    onNext (step (regs [(3, 0x41)] (at200 0x3342))) (fun t => t.pc) =
      some 0x202 := by
  decide
/-- V-CF-14. -/
theorem test_sneImm_skips :
    onNext (step (regs [(3, 0x41)] (at200 0x4342))) (fun t => t.pc) =
      some 0x204 := by
  decide
/-- V-CF-15. -/
theorem test_sneImm_falls_through :
    onNext (step (regs [(3, 0x42)] (at200 0x4342))) (fun t => t.pc) =
      some 0x202 := by
  decide
/-- V-CF-16. -/
theorem test_seReg_skips :
    onNext (step (regs [(1, 7), (2, 7)] (at200 0x5120))) (fun t => t.pc) =
      some 0x204 := by
  decide
/-- V-CF-17. -/
theorem test_seReg_falls_through :
    onNext (step (regs [(1, 7), (2, 8)] (at200 0x5120))) (fun t => t.pc) =
      some 0x202 := by
  decide
/-- V-CF-19. -/
theorem test_sneReg_skips :
    onNext (step (regs [(1, 7), (2, 8)] (at200 0x9120))) (fun t => t.pc) =
      some 0x204 := by
  decide
/-- V-CF-21. -/
theorem test_sneReg_same_register :
    onNext (step (regs [(1, 7)] (at200 0x9110))) (fun t => t.pc) =
      some 0x202 := by
  decide
/-- V-CF-23. -/
theorem test_jpV0_past_memory :
    onNext (step (regs [(0, 0xFF)] (at200 0xBFFF))) (fun t => t.pc) =
      some 0x10FE := by
  decide
/-- V-CF-25. -/
theorem test_jpV0_base_is_V0 :
    onNext (step (regs [(5, 0x10)] (at200 0xB100))) (fun t => t.pc) =
      some 0x100 := by
  decide
/-- V-ALU-1, S8. -/
theorem test_ldImm : onNext (step (at200 0x6005)) (fun t => (t.reg 0, t.pc)) = some (5, 0x202) := by decide
/-- V-ALU-3. -/
theorem test_addImm_no_carry :
    onNext (step (regs [(1, 0xFF), (0xF, 0x55)] (at200 0x7101))) (fun t => (t.reg 1, t.reg 0xF)) =
      some (0, 0x55) := by
  decide
/-- V-ALU-4. -/
theorem test_addImm_VF :
    onNext (step (regs [(0xF, 0xFF)] (at200 0x7F01))) (fun t => t.reg 0xF) =
      some 0 := by
  decide
/-- V-ALU-5. -/
theorem test_ldReg : onNext (step (regs [(2, 0x33)] (at200 0x8120))) (fun t => t.reg 1) = some 0x33 := by decide
/-- V-ALU-6. -/
theorem test_orReg_keeps_VF :
    onNext (step (regs [(1, 0x0F), (2, 0xF0), (0xF, 0x77)] (at200 0x8121))) (fun t => (t.reg 1, t.reg 0xF)) =
      some (0xFF, 0x77) := by
  decide
/-- V-ALU-7. -/
theorem test_andReg :
    onNext (step (regs [(1, 0x3C), (2, 0x0F)] (at200 0x8122))) (fun t => t.reg 1) =
      some 0x0C := by
  decide
/-- V-ALU-8. -/
theorem test_xorReg :
    onNext (step (regs [(1, 0x3C), (2, 0x0F)] (at200 0x8123))) (fun t => t.reg 1) =
      some 0x33 := by
  decide
/-- V-ALU-10. -/
theorem test_addReg_carry :
    onNext (step (regs [(1, 0xFF), (2, 0x01)] (at200 0x8124))) (fun t => (t.reg 1, t.reg 0xF)) =
      some (0, 1) := by
  decide
/-- V-ALU-14. -/
theorem test_addReg_addend_is_old_VF :
    onNext (step (regs [(1, 0x01), (0xF, 0xFF)] (at200 0x81F4))) (fun t => (t.reg 1, t.reg 0xF)) =
      some (0, 1) := by
  decide
/-- V-ALU-16. -/
theorem test_sub_borrow :
    onNext (step (regs [(1, 5), (2, 7)] (at200 0x8125))) (fun t => (t.reg 1, t.reg 0xF)) =
      some (0xFE, 0) := by
  decide
/-- V-ALU-19. -/
theorem test_sub_into_VF :
    onNext (step (regs [(0xF, 3), (2, 5)] (at200 0x8F25))) (fun t => t.reg 0xF) =
      some 0 := by
  decide
/-- V-ALU-20. -/
theorem test_subn :
    onNext (step (regs [(1, 5), (2, 7)] (at200 0x8127))) (fun t => (t.reg 1, t.reg 0xF)) =
      some (2, 1) := by
  decide
/-- V-ALU-21. -/
theorem test_subn_borrow :
    onNext (step (regs [(1, 7), (2, 5)] (at200 0x8127))) (fun t => (t.reg 1, t.reg 0xF)) =
      some (0xFE, 0) := by
  decide
/-- V-ALU-23. -/
theorem test_shr_ignores_y :
    onNext (step (regs [(1, 4), (2, 0xFF)] (at200 0x8126))) (fun t => (t.reg 1, t.reg 0xF)) =
      some (2, 0) := by
  decide
/-- V-ALU-25. -/
theorem test_shr_VF : onNext (step (regs [(0xF, 6)] (at200 0x8F06))) (fun t => t.reg 0xF) = some 3 := by decide
/-- V-ALU-26. -/
theorem test_shl :
    onNext (step (regs [(1, 0x81)] (at200 0x810E))) (fun t => (t.reg 1, t.reg 0xF)) =
      some (2, 1) := by
  decide
/-- V-ALU-28. -/
theorem test_shl_VF : onNext (step (regs [(0xF, 0x81)] (at200 0x8F0E))) (fun t => t.reg 0xF) = some 2 := by decide
/-- V-ALU-29. -/
theorem test_rnd :
    (let s := at200 0xC30F; onNext (step ({ s with input := { s.input with rnd := 0xA7 } })) (fun t => t.reg 3)) =
      some 7 := by
  decide
/-- V-MEM-1. -/
theorem test_ldI : onNext (step (at200 0xA2F0)) (fun t => t.I) = some 0x2F0 := by decide
/-- V-MEM-3. -/
theorem test_addI_wraps :
    onNext (step (regs [(2, 1)] { at200 0xF21E with I := 0xFFFF })) (fun t => (t.I, t.reg 0xF)) =
      some (0, 0) := by
  decide
/-- V-MEM-4. -/
theorem test_addI_not_masked :
    onNext (step (regs [(2, 1)] { at200 0xF21E with I := 0x0FFF })) (fun t => t.I) =
      some 0x1000 := by
  decide
/-- V-MEM-6. -/
theorem test_ldF : onNext (step (regs [(0xA, 0x0A)] (at200 0xFA29))) (fun t => t.I) = some 0x032 := by decide
/-- V-MEM-8. -/
theorem test_ldF_unmasked : onNext (step (regs [(0, 0xFF)] (at200 0xF029))) (fun t => t.I) = some 0x4FB := by decide
/-- V-MEM-9, S12. -/
theorem test_ldB :
    onNext (step (regs [(0, 0x9D)] { at200 0xF033 with I := 0x300 })) (fun t => (t.byteAt 0x300, t.byteAt 0x301, t.byteAt 0x302, t.I)) =
      some (1, 5, 7, 0x300) := by
  decide
/-- V-MEM-12. -/
theorem test_ldB_past_the_end :
    (onFault (step (regs [(0, 0x7B)] { at200 0xF033 with I := 0xFFE }))).map (fun f => (f.code, f.final.byteAt 0xFFE)) =
      some (3, 0) := by
  decide
/-- V-MEM-13. -/
theorem test_storeRegs :
    onNext (step (regs [(0, 1), (1, 2), (2, 3)] { at200 0xF255 with I := 0x300 })) (fun t => (t.byteAt 0x300, t.byteAt 0x301, t.byteAt 0x302, t.byteAt 0x303, t.I)) =
      some (1, 2, 3, 0, 0x300) := by
  decide
/-- V-MEM-16. -/
theorem test_storeRegs_past_the_end :
    (onFault (step { at200 0xFF55 with I := 0xFF1 })).map (fun f => f.code) =
      some 3 := by
  decide
/-- V-MEM-17. -/
theorem test_loadRegs :
    onNext (step (bytes 0x300 [1, 2, 3] (regs [(3, 0x44)] { at200 0xF265 with I := 0x300 }))) (fun t => (t.reg 0, t.reg 1, t.reg 2, t.reg 3, t.I)) =
      some (1, 2, 3, 0x44, 0x300) := by
  decide
/-- V-MEM-5. -/
theorem test_loadRegs_past_the_end :
    (onFault (step { at200 0xF065 with I := 0x1000 })).map (fun f => (f.code, f.final.reg 0)) =
      some (3, 0) := by
  decide
/-- V-DRW-0. -/
theorem test_cls :
    onNext (step (lit 3 4 (regs [(0xF, 0x42)] (at200 0x00E0)))) (fun t => (litCount t, t.Dirty, t.reg 0xF)) =
      some (0, true, 0x42) := by
  decide
/-- V-DRW-3. -/
theorem test_drw_wraps_columns :
    onNext (step (bytes 0x300 [0xFF] (regs [(0, 60)] { at200 0xD011 with I := 0x300 }))) (fun t => (t.pixel 0 60, t.pixel 0 63, t.pixel 0 3, t.pixel 0 4, t.reg 0xF)) =
      some (true, true, true, false, 0) := by
  decide
/-- V-DRW-6. -/
theorem test_drw_collides :
    onNext (step (lit 0 0 (bytes 0x300 [0xC0] { at200 0xD011 with I := 0x300 }))) (fun t => (t.pixel 0 0, t.pixel 0 1, t.reg 0xF)) =
      some (false, true, 1) := by
  decide
/-- V-KEY-1. -/
theorem test_skp :
    onNext (step (keys [0xA] (regs [(5, 0xA)] (at200 0xE59E)))) (fun t => t.pc) =
      some 0x204 := by
  decide
/-- V-KEY-5. -/
theorem test_skp_past_fifteen :
    (onFault (step (regs [(5, 0x10)] (at200 0xE59E)))).map (fun f => f.code) =
      some 6 := by
  decide
/-- V-KEY-3. -/
theorem test_sknp : onNext (step (regs [(5, 0xA)] (at200 0xE5A1))) (fun t => t.pc) = some 0x204 := by decide
/-- V-KEY-4. -/
theorem test_sknp_key_down :
    onNext (step (keys [0xA] (regs [(5, 0xA)] (at200 0xE5A1)))) (fun t => t.pc) =
      some 0x202 := by
  decide
/-- V-KEY-7. -/
theorem test_ldVxK_lowest :
    onNext (step (keys [3, 7] (at200 0xF20A))) (fun t => (t.reg 2, t.pc)) =
      some (3, 0x202) := by
  decide
/-- V-KEY-8. -/
theorem test_ldVxK_waits :
    onNext (step (strobe (regs [(2, 0x44)] { at200 0xF20A with DT := 2 }))) (fun t => (t.DT, t.reg 2, t.pc)) =
      some (1, 0x44, 0x200) := by
  decide
/-- V-TIM-2. -/
theorem test_ldVxDT_after_decrement :
    onNext (step (strobe { at200 0xF307 with DT := 5 })) (fun t => (t.DT, t.reg 3)) =
      some (4, 4) := by
  decide
/-- V-TIM-3. -/
theorem test_ldDT_after_decrement :
    onNext (step (strobe (regs [(3, 60)] { at200 0xF315 with DT := 10 }))) (fun t => t.DT) =
      some 60 := by
  decide
/-- V-TIM-4. -/
theorem test_ldST : onNext (step (regs [(3, 2)] (at200 0xF318))) (fun t => t.ST) = some 2 := by decide

/-! ## The tick, errors, reset and load -/

/-- V-FET-1: the last word that can be fetched runs. -/
theorem test_fetch_at_FFE : onNext (step ({ start with pc := 0xFFE }.withFetchWord 16 0x1200)) (fun t => t.pc) =
    some 0x200 := by decide
/-- V-FET-4: an odd pc fetches like an even one. -/
theorem test_fetch_odd : onNext (step ({ start with pc := 0x201 }.withFetchWord 16 0x602A))
    (fun t => (t.reg 0, t.pc)) = some (0x2A, 0x203) := by decide
/-- V-FET-5: the decrement is kept by a tick whose fetch fails. -/
theorem test_fetch_past_the_end : (onFault (step (strobe { start with pc := 0xFFF, DT := 3 }))).map
    (fun f => (f.code, f.final.DT, f.final.pc)) = some (1, 2, 0xFFF) := by decide
/-- V-TIM-6. -/
theorem test_invalid_keeps_decrement : (onFault (step (strobe { at200 0xFFFF with DT := 3, ST := 3 }))).map
    (fun f => (f.code, f.final.DT, f.final.ST, f.final.pc)) = some (2, 2, 2, 0x200) := by decide
/-- V-TIM-5: the timers saturate. -/
theorem test_timers_saturate : onNext (step (strobe { at200 0x0000 with ST := 1 })) (fun t => (t.DT, t.ST, t.pc)) =
    some (0, 0, 0x202) := by decide
/-- V-ERR-1. -/
theorem test_halted_is_refused : (match step { start with halted := true } with
    | .refused r => r == .coreHalted | .next _ => false | .fault _ => false) = true := by decide
/-- R214: the host clears Dirty between ticks. -/
theorem test_host_clears_dirty : onNext (step { at200 0x0000 with
    Dirty := true, input := { quietInput with clearDirty := true } }) (fun t => t.Dirty) = some false := by decide
/-- V-DRW-13: at reset I = 0 points at the glyph of 0. -/
theorem test_reset_glyph : onNext (step (at200 0xD015))
    (fun t => (litCount t, t.pixel 0 3, t.pixel 1 1, t.pixel 4 3, t.reg 0xF)) = some (14, true, false, true, 0) := by decide
/-- R222, D20, D25: the first tick after reset has no settled inputs: a draw, a key skip and a wait complete whatever the
host chooses (V-KEY-7 and V-KEY-8 settle the wait one way and the other). -/
theorem test_first_inputs_are_free : (onNext (step (State.reset.withFetchWord 16 0xC30F)) fun t => t.pc) = some 0x202 ∧
    (onNext (step (State.reset.withFetchWord 16 0xE59E)) fun t => t.I) = some 0 ∧
    (onNext (step (State.reset.withFetchWord 16 0xF20A)) fun _ => ()) = some () := by decide
/-- V-RST-1. -/
theorem test_load_empty : (match State.load Config.font [] with
    | .error e => e == .empty | .ok _ => false) = true := by decide
/-- V-RST-4: one byte is loaded as it is. -/
theorem test_load_one_byte : (match State.load Config.font [0x60] with
    | .ok s => onNext (step s) (fun t => (t.reg 0, t.pc)) == some (0, 0x202) | .error _ => false) = true := by decide

/-! ## Witnesses: a concrete input that meets all the hypotheses of a statement, one per clause -/

/-- The outcome is a next state. -/
def isNext (r : Result) : Bool := (onNext r fun _ => ()).isSome
/-- The outcome is an error. -/
def isFault (r : Result) : Bool := (onFault r).isSome

/-- A state in mid-run: three calls deep, timers running, V0 = 62, V1 = 31, VF = 0xAA, I = 0x300, the corner pixel on. -/
def busy : State := lit 31 63 (regs [(0, 62), (1, 31), (0xF, 0xAA)] { start with I := 0x300, SP := 3, DT := 9, ST := 7 })

theorem witness_DecodeOfEncode : (Instr.sys 0xFFF#12).wellFormed = true ∧ (Instr.drw 0xF#4 0xF#4 0xF#4).wellFormed = true := by
  decide
theorem witness_EncodeOfDecode : decode 0xFF65#16 = .ok (.loadRegs 0xF#4) := by decide
theorem witness_FetchWordOrPcOutOfBounds_fits : ({ start with pc := 0xFFE } : State).pc.toNat + 1 ≤ 0xFFF := by decide
theorem witness_FetchWordOrPcOutOfBounds_past : 0xFFF < ({ start with pc := 0xFFF } : State).pc.toNat + 1 ∧
    ({ start with pc := 0xFFF } : State).halted = false := by decide
theorem witness_FetchWordOrPcOutOfBounds_error : step { start with pc := 0xFFF } =
    .fault (.pcOutOfBounds 0xFFF { start with pc := 0xFFF, halted := true }) := by rfl
theorem witness_IllegalWordRaisesInvalidInstruction : (at200 0x5121).halted = false ∧
    (at200 0x5121).fetch = some 0x5121#16 ∧ decode 0x5121#16 = .error (.noHandler 0x5121#16) ∧
    (onFault (step (at200 0x5121))).map Fault.code = some 2 := by decide
theorem witness_StepRunsDecodedInstruction_next : (at200 0x6005).halted = false ∧ (at200 0x6005).pc.toNat + 1 ≤ 0xFFF ∧
    decode (wordOfBytes ((at200 0x6005).byteAt 0x200) ((at200 0x6005).byteAt 0x201)) = .ok (.ldImm 0x0#4 0x05#8) ∧
    isNext (exec (.ldImm 0x0#4 0x05#8) (at200 0x6005).hostTurn.tickTimers) = true := by decide
theorem witness_StepRunsDecodedInstruction_fault : (at200 0x00EE).halted = false ∧ (at200 0x00EE).pc.toNat + 1 ≤ 0xFFF ∧
    decode (wordOfBytes ((at200 0x00EE).byteAt 0x200) ((at200 0x00EE).byteAt 0x201)) = .ok .ret ∧
    isFault (exec .ret (at200 0x00EE).hostTurn.tickTimers) = true := by decide
theorem witness_FailedTickIsAtomic : isFault (step (strobe { at200 0xFFFF with DT := 1 })) = true := by decide
theorem witness_OnlyAHaltedCoreIsRefused : ({ start with halted := true } : State).halted = true ∧
    isFault (step (at200 0x00EE)) = true := by decide
theorem witness_StepGoesOnIffEveryCheckHolds : (at200 0x2300).halted = false ∧
    (at200 0x2300).instrAtPc = some (.call 0x300#12) ∧ checkOk (at200 0x2300) (.call 0x300#12) = true ∧
    isNext (step (at200 0x2300)) = true := by decide
theorem witness_TimersCountDown_kept : isNext (step (strobe { at200 0xF20A with DT := 1, ST := 0 })) = true ∧
    (at200 0xF20A).instrAtPc = some (.ldVxK 0x2#4) := by decide
theorem witness_TimersCountDown_written : isNext (step (at200 0xF315)) = true ∧
    (at200 0xF315).instrAtPc = some (.ldDT 0x3#4) ∧ isNext (step (at200 0xF318)) = true ∧
    (at200 0xF318).instrAtPc = some (.ldST 0x3#4) ∧ isNext (step (at200 0xF307)) = true ∧
    (at200 0xF307).instrAtPc = some (.ldVxDT 0x3#4) := by decide
theorem witness_TimersCountDown_failed : isFault (step (strobe { start with pc := 0xFFF, DT := 255 })) = true := by
  decide
theorem witness_DirtyStaysUntilTheHostClearsIt : isNext (step (at200 0x00E0)) = true ∧
    isNext (step { at200 0x0000 with Dirty := true }) = true := by decide
theorem witness_NextInputIsSuppliedOrFree_supplied : isNext (step { at200 0x0000 with supplied := [quietInput] }) = true := by
  decide
theorem witness_NextInputIsSuppliedOrFree_free : isNext (step (at200 0x0000)) = true ∧ (at200 0x0000).supplied = [] := by
  decide
theorem witness_PlacedWordIsFetched : Memory.wf ({ start with pc := 0xFFE } : State).Mem ∧
    ({ start with pc := 0xFFE } : State).pc.toNat + 1 ≤ 0xFFF ∧ 65535 < 65536 := by decide
theorem witness_PcSequencing_next : ({ busy with pc := 0xFFE } : State).pc.toNat ≤ 0xFFE ∧
    isNext (exec (.seReg 0x1#4 0x1#4) { busy with pc := 0xFFE }) = true ∧
    skipCondition { busy with pc := 0xFFE } (.seReg 0x1#4 0x1#4) = some true := by decide
theorem witness_PcSequencing_fault : (at200 0x00EE).pc.toNat ≤ 0xFFE ∧ isFault (exec .ret (at200 0x00EE)) = true := by decide
theorem witness_OnlyDestinationsAndFlagsChange : isNext (exec (.addReg 0x1#4 0x2#4) busy) = true ∧
    writesReg (.addReg 0x1#4 0x2#4) 0xE#4 = false := by decide
theorem witness_OnlyThreeInstructionsWriteI : isNext (exec (.loadRegs 0xF#4) busy) = true ∧
    writesI (.loadRegs 0xF#4) = false := by decide
theorem witness_OnlyCallAndRetUseTheStack : isNext (exec (.call 0x300#12) busy) = true ∧ isNext (exec .ret busy) = true ∧
    (15 : Nat) ≠ busy.SP.val := by decide
theorem witness_OnlyClsAndDrwWriteTheDisplay : isNext (exec .cls busy) = true ∧ writesDisplay .cls = true ∧
    isNext (exec (.ldB 0x0#4) busy) = true ∧ writesDisplay (.ldB 0x0#4) = false := by decide
theorem witness_OnlyTwoInstructionsStore : isNext (exec (.storeRegs 0x2#4) busy) = true ∧
    ∀ k, k < storedBytes (.storeRegs 0x2#4) → 0x303 ≠ busy.dataAddr k := by decide
theorem witness_TimersAndInputsAreKept : isNext (exec (.ldST 0x0#4) busy) = true ∧ ∀ x, Instr.ldST 0x0#4 ≠ .ldDT x := by
  decide
theorem witness_StAndDirtyAreNeverRead : isNext (exec (.ldVxDT 0x0#4) busy) = true ∧
    isNext (exec (.ldST 0x0#4) busy) = true ∧ isNext (exec .cls busy) = true ∧
    isFault (exec (.skp 0xF#4) busy) = true := by decide
theorem witness_EveryErrorIsTheInstructionsOwn : isFault (exec (.skp 0xF#4) busy) = true ∧
    checkOk busy (.skp 0xF#4) = false := by decide
theorem witness_SysIsANoOp : (0x0E1#12 : Imm12) ≠ 0x0E0#12 ∧ (0x0E1#12 : Imm12) ≠ 0x0EE#12 := by decide
theorem witness_CallPushesAndJumps : ({ busy with SP := 15 } : State).SP.val < 16 ∧
    ({ busy with SP := 16 } : State).SP.val = 16 := by decide
theorem witness_RetPopsIntoPc : 0 < ({ busy with SP := 1 } : State).SP.val ∧ 0 < ({ busy with SP := 16 } : State).SP.val ∧
    start.SP.val = 0 := by decide
theorem witness_RetReturnsPastItsCall : exec (.call 0x300#12) start =
    .next (nextOr busy (exec (.call 0x300#12) start)) ∧
    ({ busy with SP := 1, Stack := (nextOr busy (exec (.call 0x300#12) start)).Stack } : State).SP =
      (nextOr busy (exec (.call 0x300#12) start)).SP := ⟨rfl, by decide⟩
theorem witness_BcdStore : Memory.wf ({ busy with I := 0xFFD } : State).Mem ∧
    ({ busy with I := 0xFFD } : State).I.toNat + 2 ≤ 0xFFF := by decide
theorem witness_StoreRegisterRange : Memory.wf ({ busy with I := 0xFF0 } : State).Mem ∧
    ({ busy with I := 0xFF0 } : State).I.toNat + (0xF#4).toNat ≤ 0xFFF := by decide
theorem witness_LoadRegisterRange : ({ busy with I := 0xFFF } : State).I.toNat + (0x0#4).toNat ≤ 0xFFF := by decide
theorem witness_AccessesPastTheEndFault : 4096 < ({ busy with I := 0xFF2 } : State).I.toNat + (0xF#4).toNat ∧
    4096 < ({ busy with I := 0x1001 } : State).I.toNat + (0x0#4).toNat ∧
    0xFFF < ({ busy with I := 0xFFE } : State).I.toNat + 2 ∧
    0xFFF < ({ busy with I := 0xFFF } : State).I.toNat + (0x1#4).toNat := by decide
theorem witness_StoreThenLoadRestores : Memory.wf busy.Mem ∧
    exec (.storeRegs 0x2#4) busy = .next (nextOr busy (exec (.storeRegs 0x2#4) busy)) ∧
    (regs [(0, 0), (1, 0)] (nextOr busy (exec (.storeRegs 0x2#4) busy))).I =
      (nextOr busy (exec (.storeRegs 0x2#4) busy)).I ∧
    ∀ k, k ≤ 2 → (regs [(0, 0), (1, 0)] (nextOr busy (exec (.storeRegs 0x2#4) busy))).byteAt
        ((nextOr busy (exec (.storeRegs 0x2#4) busy)).dataAddr k) =
      (nextOr busy (exec (.storeRegs 0x2#4) busy)).byteAt
        ((nextOr busy (exec (.storeRegs 0x2#4) busy)).dataAddr k) := by
  refine ⟨by decide, rfl, by decide, by decide⟩
/-- Both storing instructions, at the last address that takes them. -/
theorem witness_StoreIsSeenByTheNextFetch : Memory.wf ({ busy with I := 0xFF0 } : State).Mem ∧
    0 < storedBytes (.storeRegs 0xF#4) ∧ checkOk { busy with I := 0xFF0 } (.storeRegs 0xF#4) = true ∧
    Memory.wf ({ busy with I := 0xFFD } : State).Mem ∧
    0 < storedBytes (.ldB 0x0#4) ∧ checkOk { busy with I := 0xFFD } (.ldB 0x0#4) = true := by decide
/-- The later fetch: LD B at 0x200 with I = 0x201 stores over its own low byte and the next word, LD [I],V0 only over the
low byte of the next word; each is fetched as R61 says, with pc where the run goes next or put back. -/
theorem test_store_over_code :
    onNext (step (regs [(0, 0x9D)] { at200 0xF033 with I := 0x201 })) (fun t => (t.fetch, (t.setPc 0x200).fetch)) =
      some (some 0x0507, some 0xF001) ∧
    onNext (step (bytes 0x202 [0x61, 0x11] (regs [(0, 0x9D)] { at200 0xF055 with I := 0x203 }))) (fun t => t.fetch) =
      some (some 0x619D) := by decide
theorem witness_DrawSprite : ({ busy with I := 0xFF1 } : State).I.toNat + (0xF#4).toNat ≤ 4096 ∧
    ({ busy with I := 0x1000 } : State).I.toNat + (0x0#4).toNat ≤ 4096 := by decide
/-- Both cases of the collision occur: the covered corner pixel is on in `busy`, and off at reset. -/
theorem witness_DrawSprite_collision :
    spriteCovers (bytes 0x300 [0x40] busy) 62 31 1 31 63 ∧ (bytes 0x300 [0x40] busy).pixel 31 63 = true ∧
    start.pixel 31 63 = false :=
  ⟨⟨0, by decide, 1, by decide, by decide, by decide, by decide⟩, by decide, by decide⟩
theorem witness_SecondDrawRestoresTheBuffer :
    exec (.drw 0x0#4 0x1#4 0x5#4) { busy with I := 0 } =
      .next (nextOr busy (exec (.drw 0x0#4 0x1#4 0x5#4) { busy with I := 0 })) ∧
    (nextOr busy (exec (.drw 0x0#4 0x1#4 0x5#4) { busy with I := 0 })).I = ({ busy with I := 0 } : State).I ∧
    (nextOr busy (exec (.drw 0x0#4 0x1#4 0x5#4) { busy with I := 0 })).reg 0x0#4 = busy.reg 0x0#4 ∧
    (nextOr busy (exec (.drw 0x0#4 0x1#4 0x5#4) { busy with I := 0 })).reg 0x1#4 = busy.reg 0x1#4 ∧
    ∀ k, k < 5 → (nextOr busy (exec (.drw 0x0#4 0x1#4 0x5#4) { busy with I := 0 })).byteAt k = busy.byteAt k := by
  refine ⟨rfl, by decide, by decide, by decide, by decide⟩
theorem witness_KeySkips : ((regs [(5, 0xF)] start).reg 0x5#4).toNat < 16 := by decide
theorem witness_KeyIndexPastFifteenFaults : 15 < ((regs [(5, 0x10)] start).reg 0x5#4).toNat := by decide
theorem witness_WaitForKeypress_none : ∀ k : Fin 16, start.input.keys[k.val] = false := by decide
theorem witness_WaitForKeypress_down : (keys [15] start).input.keys[15] = true ∧
    (∀ j : Fin 16, j < 15 → (keys [15] start).input.keys[j.val] = false) ∧
    (keys [0, 3] start).input.keys[0] = true := by decide
theorem witness_LoadBuildsTheInitialState : ([] : List Byte).length = 0 ∧ 3584 < (List.replicate 3585 (0 : Byte)).length ∧
    0 < (List.replicate 3584 (0x60 : Byte)).length ∧ (List.replicate 3584 (0x60 : Byte)).length ≤ 3584 := by
  simp only [List.length_replicate, List.length_nil]
  decide
theorem witness_StepKeepsTheInvariant : Inv (at200 0x6005) ∧ isNext (step (at200 0x6005)) = true :=
  ⟨⟨by decide, by decide, by decide, by decide⟩, by decide⟩

end Sys2Proof.Tests
end

