-- ==== Sys2Proof/Proofs/Stores.lean ====
section
/-! PROOFS. The two storing instructions as one: their bytes as a list, and memory read back after them
(20_memory.md R53, R61; 42_index_and_memory.md R143, R144). -/

namespace Sys2Proof.Machine

/-! ## What an instruction stores -/

/-- The bytes an instruction stores at I, in order; none for the instructions that store nothing. -/
def storedList (s : State) : Instr → List Byte
  | .ldB x => bcdDigits (s.reg x)
  | .storeRegs x => s.regRange x
  | _ => []

@[simp] theorem storedList_length (s : State) (i : Instr) : (storedList s i).length = storedBytes i := by
  cases i
  case ldB x => exact bcdDigits_length _
  case storeRegs x => exact regRange_length s x
  all_goals rfl

/-- Each digit of LD B is below 256, so the byte stored is the digit. -/
theorem bcdDigits_get_toNat (s : State) (x : Reg) (k : Nat) (h : k < (bcdDigits (s.reg x)).length) :
    (bcdDigits (s.reg x))[k].toNat = storedByte s (.ldB x) k := by
  have hv := (s.reg x).isLt
  match k, h with
  | 0, _ => exact Nat.mod_eq_of_lt (show (s.reg x).toNat / 100 < 2 ^ 8 by omega)
  | 1, _ => exact Nat.mod_eq_of_lt (show (s.reg x).toNat / 10 % 10 < 2 ^ 8 by omega)
  | 2, _ => exact Nat.mod_eq_of_lt (show (s.reg x).toNat % 10 < 2 ^ 8 by omega)

theorem storedList_get_toNat (s : State) (i : Instr) (k : Nat) (h : k < (storedList s i).length) :
    (storedList s i)[k].toNat = storedByte s i k := by
  cases i
  case ldB x => exact bcdDigits_get_toNat s x k h
  case storeRegs x => exact congrArg BitVec.toNat (regRange_get s x k h)
  all_goals cases h

/-! ## What a storing instruction does -/

theorem exec_eq_storeAtI {i : Instr} (s : State) (hi : 0 < storedBytes i) :
    exec i s = storeAtI i (storedList s i) s := by
  cases i
  case ldB x => rfl
  case storeRegs x => rfl
  all_goals cases hi

theorem checkOk_iff_stored_fits {i : Instr} (s : State) (hi : 0 < storedBytes i) :
    checkOk s i = true ↔ s.I.toNat + storedBytes i ≤ 4096 := by
  cases i
  case ldB x => exact decide_eq_true_iff
  case storeRegs x => exact decide_eq_true_iff
  all_goals cases hi

theorem storeAtI_of_fits (i : Instr) {vs : List Byte} {s : State} (h : s.I.toNat + vs.length ≤ 4096) :
    storeAtI i vs s = .next { s with Mem := Memory.writeBytes s.Mem s.I.toNat vs, pc := s.pc + 2 } :=
  if_pos ((inBounds_iff s _).2 h)

/-- A storing instruction whose check holds writes its bytes at I and advances. -/
theorem exec_of_stores {i : Instr} {s : State} (hi : 0 < storedBytes i) (hok : checkOk s i = true) :
    exec i s =
      .next { s with Mem := Memory.writeBytes s.Mem s.I.toNat (storedList s i), pc := s.pc + 2 } := by
  rw [exec_eq_storeAtI s hi]
  exact storeAtI_of_fits i (by simpa using (checkOk_iff_stored_fits s hi).1 hok)

/-- The bytes written at I read back as `byteAfter` says, at every address. -/
theorem read_writeBytes_storedList {s : State} {i : Instr} (hm : Memory.wf s.Mem)
    (hfit : s.I.toNat + storedBytes i ≤ 4096) (a : Nat) :
    (Memory.read (Memory.writeBytes s.Mem s.I.toNat (storedList s i)) a).toNat = byteAfter s i a := by
  by_cases hin : s.I.toNat ≤ a ∧ a < s.I.toNat + storedBytes i
  · obtain ⟨k, rfl⟩ := Nat.exists_eq_add_of_le hin.1
    have hk : k < storedBytes i := by omega
    rw [read_writeBytes_inside _ _ _ hm (by simpa using hk) (by simpa using hfit), storedList_get_toNat,
      byteAfter_stored hk]
  · rw [read_writeBytes_outside _ _ _ _ (by rw [storedList_length]; omega), byteAfter, if_neg hin]
    rfl

/-! ## The later fetch -/

theorem fetch_of_le {s : State} (h : s.pc.toNat ≤ 0xFFE) :
    s.fetch = some (wordOfBytes (s.byteAt s.pc.toNat) (s.byteAt (s.pc.toNat + 1))) :=
  if_pos (by omega)

/-- Between execution and the next fetch no byte of memory changes. -/
theorem sameMemory_nextFetch (t : State) : SameMemory t t.nextInput.hostTurn.tickTimers :=
  byteAt_of_Mem (by simp)

/-- Settles O43: both stores are one write of a list of bytes at I, which every later state with that memory reads
back at the two addresses it fetches. -/
theorem storeIsSeenByTheNextFetch : Obligations.StoreIsSeenByTheNextFetch := by
  intro i s hm hi hok
  refine ⟨_, exec_of_stores hi hok, rfl, sameMemory_nextFetch _, by simp, fun v hv hpc => ?_⟩
  have hbyte (a : Nat) : (v.byteAt a).toNat = byteAfter s i a := by
    rw [hv a]
    exact read_writeBytes_storedList hm ((checkOk_iff_stored_fits s hi).1 hok) a
  exact ⟨_, fetch_of_le hpc, by rw [toNat_wordOfBytes, hbyte, hbyte]⟩

end Sys2Proof.Machine
end

