-- ==== Sys2Proof/Proofs/Sequencing.lean ====
section
/-! PROOFS. Where pc goes (30_encoding.md R91, R94): the fetch at pc, the instruction's own error, which leaves pc as it
was (60_exceptions.md R203 to R206), and the pc of every next state. -/

namespace Sys2Proof.Machine

/-! ## The error of an instruction: each meaning that can stop, with the check it failed and what it records -/

theorem execRet_eq_fault {s : State} {f : Fault} (h : execRet s = .fault f) :
    s.SP.val = 0 ∧ f = .stackUnderflow s.pc (encode .ret) { s with halted := true } := by
  unfold execRet at h
  split at h
  · cases h
  · rename_i hp
    injection h with h
    exact ⟨pop_eq_none.1 hp, h.symm⟩

theorem execCall_eq_fault {nnn : Imm12} {s : State} {f : Fault} (h : execCall nnn s = .fault f) :
    s.SP.val = 16 ∧ f = .stackOverflow s.pc (encode (.call nnn)) { s with halted := true } := by
  unfold execCall at h
  split at h
  · cases h
  · rename_i hp
    injection h with h
    exact ⟨push_eq_none.1 hp, h.symm⟩

theorem execSkp_eq_fault {x : Reg} {s : State} {f : Fault} (h : execSkp x s = .fault f) :
    15 < (s.reg x).toNat ∧ f = .keyIndexOutOfRange s.pc (encode (.skp x)) (s.reg x) { s with halted := true } := by
  unfold execSkp at h
  split at h
  · cases h
  · rename_i hk
    injection h with h
    exact ⟨keyOf_eq_none.1 hk, h.symm⟩

theorem execSknp_eq_fault {x : Reg} {s : State} {f : Fault} (h : execSknp x s = .fault f) :
    15 < (s.reg x).toNat ∧ f = .keyIndexOutOfRange s.pc (encode (.sknp x)) (s.reg x) { s with halted := true } := by
  unfold execSknp at h
  split at h
  · cases h
  · rename_i hk
    injection h with h
    exact ⟨keyOf_eq_none.1 hk, h.symm⟩

theorem execDrw_eq_fault {x y : Reg} {n : Nibble} {s : State} {f : Fault} (h : execDrw x y n s = .fault f) :
    4096 < s.I.toNat + n.toNat ∧
      f = .memoryBoundsError s.pc (encode (.drw x y n)) s.I n.toNat { s with halted := true } := by
  unfold execDrw at h
  split at h
  · cases h
  · rename_i hb
    rw [inBounds_iff] at hb
    injection h with h
    exact ⟨by omega, h.symm⟩

theorem execLoadRegs_eq_fault {x : Reg} {s : State} {f : Fault} (h : execLoadRegs x s = .fault f) :
    4096 < s.I.toNat + (x.toNat + 1) ∧
      f = .memoryBoundsError s.pc (encode (.loadRegs x)) s.I (x.toNat + 1) { s with halted := true } := by
  unfold execLoadRegs at h
  split at h
  · cases h
  · rename_i hb
    rw [inBounds_iff] at hb
    injection h with h
    exact ⟨by omega, h.symm⟩

/-- An instruction that stops failed its own check and raised its own error; the others never stop. -/
theorem exec_eq_fault {i : Instr} {s : State} {f : Fault} (h : exec i s = .fault f) :
    checkOk s i = false ∧ ownError s (encode i) i = some f := by
  cases i
  case ret =>
    obtain ⟨hc, rfl⟩ := execRet_eq_fault h
    exact ⟨decide_eq_false (by omega), rfl⟩
  case call nnn =>
    obtain ⟨hc, rfl⟩ := execCall_eq_fault h
    exact ⟨decide_eq_false (by omega), rfl⟩
  case skp x =>
    obtain ⟨hc, rfl⟩ := execSkp_eq_fault h
    exact ⟨decide_eq_false (by omega), rfl⟩
  case sknp x =>
    obtain ⟨hc, rfl⟩ := execSknp_eq_fault h
    exact ⟨decide_eq_false (by omega), rfl⟩
  case drw x y n =>
    obtain ⟨hc, rfl⟩ := execDrw_eq_fault h
    exact ⟨decide_eq_false (by omega), rfl⟩
  case loadRegs x =>
    obtain ⟨hc, rfl⟩ := execLoadRegs_eq_fault h
    exact ⟨decide_eq_false (by omega), rfl⟩
  case ldB x =>
    obtain ⟨hc, rfl⟩ := storeAtI_eq_fault h
    exact ⟨decide_eq_false (Nat.not_le.2 hc), rfl⟩
  case storeRegs x =>
    obtain ⟨hc, rfl⟩ := storeAtI_eq_fault h
    rw [regRange_length] at hc ⊢
    exact ⟨decide_eq_false (Nat.not_le.2 hc), rfl⟩
  all_goals cases h

theorem ownError_final {s : State} {w : Word} {i : Instr} {f : Fault} (h : ownError s w i = some f) :
    f.final = { s with halted := true } := by
  cases i <;> cases h <;> rfl

/-- An instruction's own error is none of the two that the tick raises around it (R208, codes 1 and 2). -/
theorem two_lt_code_of_ownError {s : State} {w : Word} {i : Instr} {f : Fault} (h : ownError s w i = some f) :
    2 < f.code := by
  cases i <;> cases h <;> simp [Fault.code]

/-- An instruction that stops leaves the state as it was, but halted (60_exceptions.md R209). -/
theorem exec_fault_final {i : Instr} {s : State} {f : Fault} (h : exec i s = .fault f) :
    f.final = { s with halted := true } :=
  ownError_final (exec_eq_fault h).2

/-! ## Fetch -/

theorem step_of_fetch_none {s : State} (hh : s.halted = false) (hf : s.fetch = none) :
    step s = .fault (.pcOutOfBounds s.pc { s.atFetch with halted := true }) := by
  have hf' : s.atFetch.fetch = none := by rw [fetch_atFetch, hf]
  simp [step, runTick, hh, fetchDecodeExecute, hf', raise_eq]

/-- A step raises PcOutOfBounds at the fetch only: an illegal word and an instruction raise other errors. -/
theorem fetch_none_of_step_pcOutOfBounds {s t : State} {p : Word} (h : step s = .fault (.pcOutOfBounds p t)) :
    s.fetch = none ∧ p = s.pc := by
  obtain ⟨-, ⟨hf, he⟩ | ⟨w, r, -, -, he⟩ | ⟨w, i, -, -, he⟩⟩ := step_eq_fault h
  · injection he with hp
    exact ⟨hf, hp⟩
  · cases he
  · exact absurd (two_lt_code_of_ownError (exec_eq_fault he).2) (by decide : ¬ 2 < 1)

/-- Settles O5: the three clauses are the fetch that succeeds, the step on the fetch that fails, and the converse. -/
theorem fetchWordOrPcOutOfBounds : Obligations.FetchWordOrPcOutOfBounds := by
  intro s
  refine ⟨fun hpc => ?fits, fun hpc => ?past, fun p t h => ?only⟩
  case fits => exact ⟨_, fetch_of_le (by omega), toNat_wordOfBytes _ _⟩
  case past =>
    have hf : s.fetch = none := fetch_eq_none.2 (by omega)
    exact ⟨hf, fun hh => ⟨_, step_of_fetch_none hh hf⟩⟩
  case only =>
    obtain ⟨hf, hp⟩ := fetch_none_of_step_pcOutOfBounds h
    have := fetch_eq_none.1 hf
    exact ⟨hp, by omega⟩

/-! ## The skip family -/

/-- A register that names a key reads that key of the snapshot. -/
theorem keys_getD_of_keyOf {s : State} {v : Byte} {k : Nibble} (h : keyOf v = some k) :
    s.input.keys[v.toNat]?.getD false = s.keyDown k := by
  obtain ⟨-, hk⟩ := keyOf_eq_some h
  rw [← hk, Vector.getElem?_eq_getElem k.isLt]
  rfl

/-- A skip that goes on moves pc by its condition, and does nothing else. -/
theorem exec_skip_eq_next {i : Instr} {s t : State} {b : Bool} (hb : skipCondition s i = some b)
    (h : exec i s = .next t) : t = s.skipIf b := by
  cases i
  case skp x =>
    obtain ⟨k, hk, rfl⟩ := execSkp_eq_next h
    cases hb
    rw [keys_getD_of_keyOf hk]
  case sknp x =>
    obtain ⟨k, hk, rfl⟩ := execSknp_eq_next h
    cases hb
    rw [keys_getD_of_keyOf hk]
  case seImm | sneImm | seReg | sneReg => cases hb; cases h; rfl
  all_goals cases hb

theorem pcAfter_of_skip {i : Instr} {s : State} {b : Bool} (hb : skipCondition s i = some b) :
    pcAfter s i = if b then s.pc.toNat + 4 else s.pc.toNat + 2 := by
  cases i
  case seImm | sneImm | seReg | sneReg | skp | sknp => cases hb; simp [pcAfter, skipCondition]
  all_goals cases hb

/-- After a fetch pc + 2 does not wrap (R11). -/
theorem toNat_pc_add_two {s : State} (hpc : s.pc.toNat ≤ 0xFFE) : (s.pc + 2).toNat = s.pc.toNat + 2 := by
  bv_omega

theorem skipIf_pc_toNat {s : State} (hpc : s.pc.toNat ≤ 0xFFE) (b : Bool) :
    (s.skipIf b).pc.toNat = if b then s.pc.toNat + 4 else s.pc.toNat + 2 := by
  cases b with
  | false => exact toNat_pc_add_two hpc
  | true => show (s.pc + 4).toNat = s.pc.toNat + 4; bv_omega

/-! ## pc after every instruction -/

theorem noKeyDown_iff {s : State} : noKeyDown s = true ↔ s.lowestKey = none := by
  rw [lowestKey_eq_none, noKeyDown, decide_eq_true_iff]
  exact ⟨fun h k => h ⟨k.toNat, k.isLt⟩, fun h k => h (BitVec.ofFin k)⟩

/-- The instructions that only advance: no transfer, no skip, no wait (R94). -/
def onlyAdvances : Instr → Bool
  | .ret | .jp _ | .call _ | .jpV0 _ | .ldVxK _ => false
  | .seImm _ _ | .sneImm _ _ | .seReg _ _ | .sneReg _ _ | .skp _ | .sknp _ => false
  | _ => true

theorem pc_of_onlyAdvances {i : Instr} {s t : State} (hi : onlyAdvances i = true) (h : exec i s = .next t) :
    t.pc = s.pc + 2 := by
  cases i
  case drw => obtain ⟨-, g, c, -, rfl⟩ := execDrw_eq_next h; rfl
  case loadRegs => obtain ⟨-, rfl⟩ := execLoadRegs_eq_next h; simp
  case ldB | storeRegs => obtain ⟨-, rfl⟩ := storeAtI_eq_next h; rfl
  case ret | jp | call | jpV0 | ldVxK | seImm | sneImm | seReg | sneReg | skp | sknp => cases hi
  all_goals cases h; rfl

theorem pcAfter_of_onlyAdvances {i : Instr} (s : State) (hi : onlyAdvances i = true) :
    pcAfter s i = s.pc.toNat + 2 := by
  cases i
  case ret | jp | call | jpV0 | ldVxK | seImm | sneImm | seReg | sneReg | skp | sknp => cases hi
  all_goals rfl

/-- V0 + nnn is at most 0x10FE, so the 16-bit sum is exact (R109). -/
theorem toNat_zextByte_add_zextImm (v : Byte) (nnn : Imm12) :
    (zextByte v + zextImm nnn).toNat = v.toNat + nnn.toNat := by
  have hv := v.isLt
  have hn := nnn.isLt
  rw [BitVec.toNat_add, zextByte_toNat, zextImm_toNat]
  omega

theorem execRet_pc_toNat {s t : State} (h : execRet s = .next t) : t.pc.toNat = pcAfter s .ret := by
  obtain ⟨hs, rfl⟩ := execRet_eq_next h
  have hlt : s.SP.val - 1 < 16 := by omega
  simp [pcAfter, hlt]

theorem execLdVxK_pc_toNat {x : Reg} {s t : State} (hpc : s.pc.toNat ≤ 0xFFE) (h : execLdVxK x s = .next t) :
    t.pc.toNat = pcAfter s (.ldVxK x) := by
  obtain ⟨k, hk, he⟩ | ⟨hk, he⟩ := execLdVxK_cases (x := x) s
  · have hn : noKeyDown s ≠ true := by simp [noKeyDown_iff, hk]
    cases he.symm.trans h
    simp only [pcAfter, if_neg hn]
    exact toNat_pc_add_two hpc
  · cases he.symm.trans h
    exact (if_pos (noKeyDown_iff.2 hk)).symm

/-- R94: the pc of a completed instruction, exactly. -/
theorem exec_pc_toNat {i : Instr} {s t : State} (hpc : s.pc.toNat ≤ 0xFFE) (h : exec i s = .next t) :
    t.pc.toNat = pcAfter s i := by
  have hskip {b : Bool} (hb : skipCondition s i = some b) : t.pc.toNat = pcAfter s i := by
    rw [exec_skip_eq_next hb h, skipIf_pc_toNat hpc, pcAfter_of_skip hb]
  have hadv (hi : onlyAdvances i = true) : t.pc.toNat = pcAfter s i := by
    rw [pc_of_onlyAdvances hi h, toNat_pc_add_two hpc, pcAfter_of_onlyAdvances s hi]
  cases i
  case ret => exact execRet_pc_toNat h
  case call nnn => obtain ⟨-, rfl⟩ := execCall_eq_next h; exact zextImm_toNat nnn
  case jp nnn => cases h; exact zextImm_toNat nnn
  case jpV0 nnn => cases h; exact toNat_zextByte_add_zextImm _ nnn
  case ldVxK => exact execLdVxK_pc_toNat hpc h
  case seImm | sneImm | seReg | sneReg | skp | sknp => exact hskip rfl
  all_goals exact hadv rfl

/-- Settles O17: the instructions are the transfers, the wait, the skips and those that only advance; an error's final
state is the one before it, halted. -/
theorem pcSequencing : Obligations.PcSequencing := by
  intro i s hpc
  refine ⟨fun t h => exec_pc_toNat hpc h, fun t b h hb => ?_, fun f h => by rw [exec_fault_final h]⟩
  rw [exec_pc_toNat hpc h, pcAfter_of_skip hb]
  split <;> omega

end Sys2Proof.Machine
end

