-- ==== Sys2Proof/Proofs/ControlFlow.lean ====
section
/-! PROOFS. Control flow (40_control_flow.md): the class 0 words that are neither CLS nor RET, and the frame of an
instruction that only moves pc. -/

namespace Sys2Proof.Machine

/-- Moving pc changes nothing else. -/
theorem onlyPc_setPc (s : State) (p : Word) : OnlyPc s (s.setPc p) :=
  ⟨fun _ _ => rfl, rfl, ⟨rfl, rfl⟩, ⟨rfl, rfl⟩, fun _ => rfl, ⟨fun _ _ => rfl, rfl⟩, rfl, rfl, rfl, rfl⟩

/-- Class 0 is decoded on nnn alone. -/
theorem decode_class0 (nnn : Imm12) : decode (packNNN 0x0#4 nnn) = .ok (decodeClass0 nnn) := by
  simp [decode]

/-- SYS is the catch-all of class 0: what is neither CLS nor RET (30_encoding.md R76). -/
theorem decodeClass0_of_ne {nnn : Imm12} (hcls : nnn ≠ 0x0E0#12) (hret : nnn ≠ 0x0EE#12) :
    decodeClass0 nnn = .sys nnn := by
  rw [decodeClass0, if_neg hcls, if_neg hret]

theorem exec_sys (nnn : Imm12) (s : State) : exec (.sys nnn) s = .next s.advance := rfl

/-- Settles O25: class 0 falls through to SYS once CLS and RET are excluded, and SYS is one move of pc. -/
theorem sysIsANoOp : Obligations.SysIsANoOp := by
  intro nnn hcls hret
  refine ⟨?decodes, fun s => ⟨_, exec_sys nnn s, advance_pc s, onlyPc_setPc s _⟩⟩
  case decodes => rw [decode_class0, decodeClass0_of_ne hcls hret]

end Sys2Proof.Machine
end

