-- ==== Sys2Proof/Proofs/Alu.lean ====
section
/-! PROOFS. ALU and register instructions (41_alu.md): the two immediate forms, each one register write and an
advance. -/

namespace Sys2Proof.Machine

/-! ## One register write, then advance -/

theorem sameRegsBut_setReg_advance (s : State) (x : Reg) (v : Byte) : SameRegsBut [x] s (s.setReg x v).advance := by
  intro r hr
  rw [reg_advance, reg_setReg_of_ne s v (List.ne_of_not_mem_cons hr)]

theorem onlyRegsAndPc_setReg_advance (s : State) (x : Reg) (v : Byte) : OnlyRegsAndPc s (s.setReg x v).advance :=
  ⟨rfl, ⟨rfl, rfl⟩, ⟨rfl, rfl⟩, fun _ => rfl, ⟨fun _ _ => rfl, rfl⟩, rfl, rfl, rfl, rfl⟩

/-! ## The immediate forms (R120, R121) -/

theorem decode_class6 (x : Reg) (kk : Byte) : decode (packXKK 0x6#4 x kk) = .ok (.ldImm x kk) := by
  simp [decode]

theorem decode_class7 (x : Reg) (kk : Byte) : decode (packXKK 0x7#4 x kk) = .ok (.addImm x kk) := by
  simp [decode]

theorem exec_ldImm (x : Reg) (kk : Byte) (s : State) : exec (.ldImm x kk) s = .next (s.setReg x kk).advance := rfl

theorem exec_addImm (x : Reg) (kk : Byte) (s : State) :
    exec (.addImm x kk) s = .next (s.setReg x (addByte (s.reg x) kk)).advance := rfl

/-- Settles O31: LD Vx,kk is one write of Vx and an advance, whose frame holds whatever x is. -/
theorem loadImmediate : Obligations.LoadImmediate := by
  intro x kk
  refine ⟨decode_class6 x kk, fun s => ⟨_, exec_ldImm x kk s, ?loaded, sameRegsBut_setReg_advance s x kk,
    advance_pc _, onlyRegsAndPc_setReg_advance s x kk⟩⟩
  case loaded => rw [reg_advance, reg_setReg_self]

/-- Settles O32: the same write and advance, of the byte sum; no flag is written, so VF is in the frame like any other
register. -/
theorem addImmediate : Obligations.AddImmediate := by
  intro x kk
  refine ⟨decode_class7 x kk, fun s => ⟨_, exec_addImm x kk s, ?sum, sameRegsBut_setReg_advance s x _,
    advance_pc _, onlyRegsAndPc_setReg_advance s x _⟩⟩
  case sum => rw [reg_advance, reg_setReg_self, addByte_toNat]

end Sys2Proof.Machine
end

