-- ==== Sys2Proof/Proofs/Tick.lean ====
section
/-! PROOFS. What a tick makes of the word at pc (30_encoding.md R90, R215): no handler, the instruction's next state, or
its error; and what a failed tick leaves (60_exceptions.md R202, R209). -/

namespace Sys2Proof.Machine

/-! ## One step, by the word fetched -/

theorem step_of_not_halted {s : State} (hh : s.halted = false) : step s = fetchDecodeExecute s.atFetch := by
  simp [step, runTick, hh]

/-- A fetched word that no handler matches ends the tick (R202). -/
theorem step_of_decode_error {s : State} {w : Word} {r : Reject} (hh : s.halted = false) (hf : s.fetch = some w)
    (hd : decode w = .error r) :
    step s = .fault (.invalidInstruction w s.pc { s.atFetch with halted := true }) := by
  have hf' : s.atFetch.fetch = some w := by rw [fetch_atFetch, hf]
  simp [step_of_not_halted hh, fetchDecodeExecute, hf', hd, raise_eq]

/-- A fetched word that decodes is executed on the state after the host's turn and the timers (R90). -/
theorem step_of_decode_ok {s : State} {w : Word} {i : Instr} (hh : s.halted = false) (hf : s.fetch = some w)
    (hd : decode w = .ok i) : step s = afterExec (exec i s.atFetch) := by
  have hf' : s.atFetch.fetch = some w := by rw [fetch_atFetch, hf]
  simp [step_of_not_halted hh, fetchDecodeExecute, hf', hd]

/-- Settles O7: the two bytes at pc are the word fetched, so the step is what exec answers, with the next inputs. -/
theorem stepRunsDecodedInstruction : Obligations.StepRunsDecodedInstruction := by
  intro s i hh hpc hd
  have hstep : step s = afterExec (exec i s.atFetch) := step_of_decode_ok hh (fetch_of_le (by omega)) hd
  exact ⟨fun u hu => by rw [hstep, hu, afterExec], fun f hf => by rw [hstep, hf, afterExec]⟩

/-! ## InvalidInstruction -/

/-- A step raises InvalidInstruction at the decode only: the fetch and an instruction raise other errors. -/
theorem decode_error_of_step_invalidInstruction {s t : State} {w p : Word}
    (h : step s = .fault (.invalidInstruction w p t)) :
    p = s.pc ∧ s.fetch = some w ∧ ∃ r, decode w = .error r := by
  obtain ⟨-, ⟨-, he⟩ | ⟨w', r, hf, hd, he⟩ | ⟨w', i, -, -, he⟩⟩ := step_eq_fault h
  · cases he
  · cases he
    exact ⟨rfl, hf, r, hd⟩
  · exact absurd (two_lt_code_of_ownError (exec_eq_fault he).2) (by decide : ¬ 2 < 2)

/-- Settles O6: the step on a word that does not decode, and the converse. -/
theorem illegalWordRaisesInvalidInstruction : Obligations.IllegalWordRaisesInvalidInstruction := by
  intro s w hh
  refine ⟨fun hf hd => ?raised, fun p t h => decode_error_of_step_invalidInstruction h⟩
  case raised =>
    obtain ⟨r, hr⟩ := hd
    exact ⟨_, step_of_decode_error hh hf hr⟩

/-! ## The state a failed tick leaves -/

/-- Settles O8: whichever of fetch, decode and the instruction raised the error, it halts the state that the host's turn
and the timers left. -/
theorem failedTickIsAtomic : Obligations.FailedTickIsAtomic := by
  intro s f h
  obtain ⟨-, ⟨-, rfl⟩ | ⟨w, r, -, -, rfl⟩ | ⟨w, i, -, -, he⟩⟩ := step_eq_fault h
  · rfl
  · rfl
  · exact exec_fault_final he

end Sys2Proof.Machine
end

