-- ==== Sys2Proof/Proofs/Timers.lean ====
section
/-! PROOFS. The timers over a step (60_exceptions.md R210): the one decrement before execution, and the two instructions
that overwrite it (44_timers_and_keys.md R184, R185). -/

namespace Sys2Proof.Machine

/-! ## The decrement -/

theorem toNat_ite_countDown (dec : Bool) (v : Byte) :
    (if dec then countDown v else v).toNat = if dec then v.toNat - 1 else v.toNat := by
  rw [apply_ite BitVec.toNat, countDown_toNat]

theorem atFetch_DT_toNat (s : State) :
    s.atFetch.DT.toNat = if s.input.dec then s.DT.toNat - 1 else s.DT.toNat :=
  toNat_ite_countDown s.input.dec s.DT

theorem atFetch_ST_toNat (s : State) :
    s.atFetch.ST.toNat = if s.input.dec then s.ST.toNat - 1 else s.ST.toNat :=
  toNat_ite_countDown s.input.dec s.ST

/-! ## The timers after an instruction -/

/-- DT after an instruction that goes on (`exec_timers`). -/
def dtAfter (s : State) : Instr → Byte
  | .ldDT x => s.reg x
  | _ => s.DT

/-- ST after an instruction that goes on (`exec_timers`). -/
def stAfter (s : State) : Instr → Byte
  | .ldST x => s.reg x
  | _ => s.ST

theorem dtAfter_of_ne {i : Instr} (s : State) (hi : ∀ x, i ≠ .ldDT x) : dtAfter s i = s.DT := by
  cases i
  case ldDT x => exact absurd rfl (hi x)
  all_goals rfl

theorem stAfter_of_ne {i : Instr} (s : State) (hi : ∀ x, i ≠ .ldST x) : stAfter s i = s.ST := by
  cases i
  case ldST x => exact absurd rfl (hi x)
  all_goals rfl

theorem exec_timers {i : Instr} {s t : State} (h : exec i s = .next t) :
    t.DT = dtAfter s i ∧ t.ST = stAfter s i := by
  cases i
  case ret => obtain ⟨-, rfl⟩ := execRet_eq_next h; exact ⟨rfl, rfl⟩
  case call => obtain ⟨-, rfl⟩ := execCall_eq_next h; exact ⟨rfl, rfl⟩
  case skp => obtain ⟨k, -, rfl⟩ := execSkp_eq_next h; exact ⟨rfl, rfl⟩
  case sknp => obtain ⟨k, -, rfl⟩ := execSknp_eq_next h; exact ⟨rfl, rfl⟩
  case drw => obtain ⟨-, g, c, -, rfl⟩ := execDrw_eq_next h; exact ⟨rfl, rfl⟩
  case ldB | storeRegs => obtain ⟨-, rfl⟩ := storeAtI_eq_next h; exact ⟨rfl, rfl⟩
  case loadRegs =>
    obtain ⟨-, rfl⟩ := execLoadRegs_eq_next h
    exact ⟨loadRange_DT s _, loadRange_ST s _⟩
  case ldVxK x =>
    obtain ⟨k, -, he⟩ | ⟨-, he⟩ := execLdVxK_cases (x := x) s
    all_goals cases he.symm.trans h; exact ⟨rfl, rfl⟩
  all_goals cases h; exact ⟨rfl, rfl⟩

theorem exec_ldVxDT (x : Reg) (s : State) : exec (.ldVxDT x) s = .next (s.setReg x s.DT).advance := rfl

/-! ## The step -/

theorem instrAtPc_of_fetch {s : State} {w : Word} {i : Instr} (hf : s.fetch = some w) (hd : decode w = .ok i) :
    s.instrAtPc = some i := by
  simp [State.instrAtPc, hf, hd]

/-- A step that goes on ran the instruction at pc. -/
theorem step_eq_next_instrAtPc {s t : State} (h : step s = .next t) :
    ∃ i u, s.instrAtPc = some i ∧ exec i s.atFetch = .next u ∧ t = u.nextInput := by
  obtain ⟨-, w, i, u, hf, hd, he, ht⟩ := step_eq_next h
  exact ⟨i, u, instrAtPc_of_fetch hf hd, he, ht⟩

/-- Settles O11: execution starts from the decremented timers and leaves what `exec_timers` says; a failed tick leaves
the decremented timers. -/
theorem timersCountDownBeforeExecution : Obligations.TimersCountDownBeforeExecution := by
  intro s
  refine ⟨fun t h => ?goesOn, fun f h => ?fails⟩
  case fails =>
    rw [failedTickIsAtomic s f h]
    exact ⟨atFetch_DT_toNat s, atFetch_ST_toNat s⟩
  case goesOn =>
    obtain ⟨i, u, hi, he, rfl⟩ := step_eq_next_instrAtPc h
    obtain ⟨hDT, hST⟩ := exec_timers he
    rw [hi, nextInput_DT, nextInput_ST, hDT, hST]
    refine ⟨fun hne => ?keptDT, fun hne => ?keptST, fun x hx => ?writtenDT, fun x hx => ?writtenST,
      fun x hx => ?readDT⟩
    case keptDT => rw [dtAfter_of_ne _ fun x hx => hne x (congrArg some hx), atFetch_DT_toNat]
    case keptST => rw [stAfter_of_ne _ fun x hx => hne x (congrArg some hx), atFetch_ST_toNat]
    case writtenDT => cases hx; rfl
    case writtenST => cases hx; rfl
    case readDT =>
      cases hx
      cases (exec_ldVxDT x s.atFetch).symm.trans he
      rw [reg_nextInput, reg_advance, reg_setReg_self, atFetch_DT_toNat]

end Sys2Proof.Machine
end

