-- ==== Sys2Proof/Proofs/Codec.lean ====
section
/-! PROOFS. Decoder and encoder are inverse to one another, and the words the decoder rejects are those of the table
(30_encoding.md R70 to R77). -/

namespace Sys2Proof

open Sys2Proof.Machine

/-! ## Decoding an encoded instruction -/

/-- The one operand that the encoder cannot take is the one that well-formedness excludes (R76). -/
theorem decodeClass0_of_sysImmOk {nnn : Imm12} (h : sysImmOk nnn = true) : decodeClass0 nnn = .sys nnn := by
  simp only [sysImmOk, Bool.and_eq_true, bne_iff_ne] at h
  exact decodeClass0_of_ne h.1 h.2

/-- The fields of the packed word select the row again, and are its operands. -/
theorem decode_encode {i : Instr} (h : i.wellFormed = true) : decode (encode i) = .ok i := by
  cases i
  case cls | ret => rfl
  case sys nnn =>
    show decode (packNNN 0x0#4 nnn) = _
    rw [decode_class0, decodeClass0_of_sysImmOk h]
  case jp | call | ldI | jpV0 => simp [encode, decode]
  case seImm | sneImm | ldImm | addImm | rnd => simp [encode, decode]
  case seReg | sneReg | drw => simp [encode, decode]
  case ldReg | orReg | andReg | xorReg | addReg | sub | shr | subn | shl => simp [encode, decode, decodeClass8]
  case skp | sknp => simp [encode, decode, decodeClassE]
  all_goals simp [encode, decode, decodeClassF]

/-- Settles O1: the two bytes of an instruction join to its word, and the fields of that word are its operands. -/
theorem decodeOfEncode : Obligations.DecodeOfEncode := by
  intro i hi
  have hword := decode_encode hi
  exact ⟨hword, by simp [encodeBytes, decodeBytes, hword]⟩

/-! ## Encoding a decoded word -/

theorem packNNN_of_fields {w : Word} {a : Nibble} (ha : fieldA w = a) : packNNN a (fieldNNN w) = w := by
  rw [← ha, packNNN_fields]

theorem packXKK_of_fields {w : Word} {a : Nibble} {kk : Byte} (ha : fieldA w = a) (hk : fieldKK w = kk) :
    packXKK a (fieldX w) kk = w := by
  rw [← ha, ← hk, packXKK_fields]

theorem packXYN_of_fields {w : Word} {a b : Nibble} (ha : fieldA w = a) (hb : fieldB w = b) :
    packXYN a (fieldX w) (fieldY w) b = w := by
  rw [← ha, ← hb, packXYN_fields]

/-- `i` is an instruction and `w` its word. -/
def IsWordOf (w : Word) (i : Instr) : Prop := i.wellFormed = true ∧ encode i = w

theorem isWordOf_decodeClass0 {w : Word} (ha : fieldA w = 0x0#4) : IsWordOf w (decodeClass0 (fieldNNN w)) := by
  unfold decodeClass0
  split
  case isTrue hcls => exact ⟨rfl, by rw [← packNNN_of_fields ha, hcls]; rfl⟩
  case isFalse hcls =>
    split
    case isTrue hret => exact ⟨rfl, by rw [← packNNN_of_fields ha, hret]; rfl⟩
    case isFalse hret => exact ⟨by simp [Instr.wellFormed, sysImmOk, hcls, hret], packNNN_of_fields ha⟩

theorem isWordOf_of_decodeClass8 {w : Word} {i : Instr} (ha : fieldA w = 0x8#4) (h : decodeClass8 w = .ok i) :
    IsWordOf w i := by
  unfold decodeClass8 at h
  split at h <;> cases h
  all_goals exact ⟨rfl, packXYN_of_fields ha ‹_›⟩

theorem isWordOf_of_decodeClassE {w : Word} {i : Instr} (ha : fieldA w = 0xE#4) (h : decodeClassE w = .ok i) :
    IsWordOf w i := by
  unfold decodeClassE at h
  split at h <;> cases h
  all_goals exact ⟨rfl, packXKK_of_fields ha ‹_›⟩

theorem isWordOf_of_decodeClassF {w : Word} {i : Instr} (ha : fieldA w = 0xF#4) (h : decodeClassF w = .ok i) :
    IsWordOf w i := by
  unfold decodeClassF at h
  split at h <;> cases h
  all_goals exact ⟨rfl, packXKK_of_fields ha ‹_›⟩

/-- The last class is what the fifteen others leave. -/
theorem eq_0xF_of_not_mem : ∀ {a : Nibble}, a ∉ [0x0#4, 0x1#4, 0x2#4, 0x3#4, 0x4#4, 0x5#4, 0x6#4, 0x7#4, 0x8#4, 0x9#4,
    0xA#4, 0xB#4, 0xC#4, 0xD#4, 0xE#4] → a = 0xF#4 := by
  decide

/-- By the class of the word. -/
theorem isWordOf_of_decode {w : Word} {i : Instr} (h : decode w = .ok i) : IsWordOf w i := by
  unfold decode at h
  split at h
  case h_1 _ ha => cases h; exact isWordOf_decodeClass0 ha
  case h_6 _ ha | h_10 _ ha =>
    split at h <;> cases h
    exact ⟨rfl, packXYN_of_fields ha ‹_›⟩
  case h_9 _ ha => exact isWordOf_of_decodeClass8 ha h
  case h_15 _ ha => exact isWordOf_of_decodeClassE ha h
  case h_16 => exact isWordOf_of_decodeClassF (eq_0xF_of_not_mem (by simp_all)) h
  case h_2 _ ha | h_3 _ ha | h_11 _ ha | h_12 _ ha => cases h; exact ⟨rfl, packNNN_of_fields ha⟩
  case h_14 _ ha => cases h; exact ⟨rfl, packXYN_of_fields ha rfl⟩
  case h_4 _ ha | h_5 _ ha | h_7 _ ha | h_8 _ ha | h_13 _ ha => cases h; exact ⟨rfl, packXKK_of_fields ha rfl⟩

/-- Settles O2: a word is the packing of the fields its class reads. -/
theorem encodeOfDecode : Obligations.EncodeOfDecode := fun _ _ => isWordOf_of_decode

/-! ## The words without an instruction -/

theorem error_ite_iff {p : Prop} [Decidable p] {i : Instr} {r₀ : Reject} :
    (∃ r, (if p then .ok i else .error r₀ : Except Reject Instr) = .error r) ↔ ¬ p := by
  by_cases hp : p <;> simp [hp]

/-- Class 8 uses nine of the sixteen values of its last field. -/
theorem mem_unused8_of_not_mem : ∀ {b : Nibble}, b ∉ [0x0#4, 0x1#4, 0x2#4, 0x3#4, 0x4#4, 0x5#4, 0x6#4, 0x7#4, 0xE#4] →
    b ∈ [0x8#4, 0x9#4, 0xA#4, 0xB#4, 0xC#4, 0xD#4, 0xF#4] := by
  decide

theorem decodeClass8_error_iff {w : Word} : (∃ r, decodeClass8 w = .error r) ↔
    fieldB w ∈ [0x8#4, 0x9#4, 0xA#4, 0xB#4, 0xC#4, 0xD#4, 0xF#4] := by
  unfold decodeClass8
  split
  case h_10 => simpa using mem_unused8_of_not_mem (b := fieldB w) (by simp_all)
  all_goals simp [*]

theorem decodeClassE_error_iff {w : Word} : (∃ r, decodeClassE w = .error r) ↔
    fieldKK w ∉ [0x9E#8, 0xA1#8] := by
  unfold decodeClassE
  split <;> simp_all

theorem decodeClassF_error_iff {w : Word} : (∃ r, decodeClassF w = .error r) ↔
    fieldKK w ∉ [0x07#8, 0x0A#8, 0x15#8, 0x18#8, 0x1E#8, 0x29#8, 0x33#8, 0x55#8, 0x65#8] := by
  unfold decodeClassF
  split <;> simp_all

/-- Settles O3: by the class of the word; only classes 5, 8, 9, E and F reject, on the field the table names. -/
theorem illegalWordsAreTheTables : Obligations.IllegalWordsAreTheTables := by
  intro w
  unfold decode
  split
  case h_6 _ ha | h_10 _ ha => simp [error_ite_iff, illegalByTable, ha]
  case h_9 _ ha => simp [decodeClass8_error_iff, illegalByTable, ha]
  case h_15 _ ha => simp [decodeClassE_error_iff, illegalByTable, ha]
  case h_16 =>
    have ha : fieldA w = 0xF#4 := eq_0xF_of_not_mem (by simp_all)
    simp [decodeClassF_error_iff, illegalByTable, ha]
  all_goals simp [illegalByTable, *]

/-- Settles O4: each word's fields are read off. -/
theorem specWordsDecode : Obligations.SpecWordsDecode := by
  unfold Obligations.SpecWordsDecode
  decide

end Sys2Proof
end

