-- ==== Sys2Proof/Proofs/Completion.lean ====
section
/-! PROOFS. Which instructions complete, and what the others answer: an instruction goes on exactly when its one check
holds, and else raises its own error (60_exceptions.md R203 to R206, R215); which steps go on, and which are refused
(R209, R215). -/

namespace Sys2Proof.Machine

/-! ## The check decides -/

theorem raise_ne_refused (e : State → Fault) (s : State) (r : Refusal) : raise e s ≠ .refused r := by simp [raise]

/-- Every arm of `exec` has a meaning (R217). -/
theorem exec_ne_refused (i : Instr) (s : State) (r : Refusal) : exec i s ≠ .refused r := by
  intro h
  cases i
  case ret | call | drw | skp | sknp | ldB | storeRegs | loadRegs =>
    simp only [exec, execRet, execCall, execDrw, execSkp, execSknp, execLdB, execStoreRegs, storeAtI,
      execLoadRegs] at h
    split at h
    · cases h
    · exact raise_ne_refused _ _ _ h
  all_goals cases h

/-- An instruction that goes on passed its check. -/
theorem checkOk_of_exec_next {i : Instr} {s t : State} (h : exec i s = .next t) : checkOk s i = true := by
  cases i
  case ret => obtain ⟨hs, -⟩ := execRet_eq_next h; exact decide_eq_true hs
  case call => obtain ⟨hs, -⟩ := execCall_eq_next h; exact decide_eq_true hs
  case drw => obtain ⟨hb, -⟩ := execDrw_eq_next h; exact decide_eq_true hb
  case skp => obtain ⟨k, hk, -⟩ := execSkp_eq_next h; exact decide_eq_true (keyOf_eq_some hk).1
  case sknp => obtain ⟨k, hk, -⟩ := execSknp_eq_next h; exact decide_eq_true (keyOf_eq_some hk).1
  case loadRegs => obtain ⟨hb, -⟩ := execLoadRegs_eq_next h; exact decide_eq_true hb
  case ldB => obtain ⟨hb, -⟩ := storeAtI_eq_next h; exact decide_eq_true hb
  case storeRegs x =>
    obtain ⟨hb, -⟩ := storeAtI_eq_next h
    exact decide_eq_true (by simpa using hb)
  all_goals rfl

theorem exec_next_of_checkOk {i : Instr} {s : State} (h : checkOk s i = true) : ∃ t, exec i s = .next t := by
  cases he : exec i s with
  | next t => exact ⟨t, rfl⟩
  | fault f => exact absurd h (by simp [(exec_eq_fault he).1])
  | refused r => exact absurd he (exec_ne_refused i s r)

theorem exec_fault_of_ownError {i : Instr} {s : State} {f : Fault} (hc : checkOk s i = false)
    (hf : ownError s (encode i) i = some f) : exec i s = .fault f := by
  cases he : exec i s with
  | next t => exact absurd (checkOk_of_exec_next he) (by simp [hc])
  | fault g => rw [Option.some.inj ((exec_eq_fault he).2.symm.trans hf)]
  | refused r => exact absurd he (exec_ne_refused i s r)

/-- Settles O15: of the three outcomes a refusal never happens, and a fault only when the check fails. -/
theorem everyInstructionCompletesIffItsCheckHolds : Obligations.EveryInstructionCompletesIffItsCheckHolds :=
  fun i s => ⟨⟨fun ⟨_, h⟩ => checkOk_of_exec_next h, exec_next_of_checkOk⟩, exec_ne_refused i s⟩

/-- Settles O16: an instruction whose check fails can only raise, and what it raises is its own error. -/
theorem everyErrorIsTheInstructionsOwn : Obligations.EveryErrorIsTheInstructionsOwn :=
  fun _ _ _ => ⟨exec_eq_fault, fun ⟨hc, hf⟩ => exec_fault_of_ownError hc hf⟩

/-! ## The errors, instruction by instruction -/

/-- Settles O41: the four checks fail past the end of memory, and the errors are the instructions' own. -/
theorem accessesPastTheEndFault : Obligations.AccessesPastTheEndFault := by
  intro x y n s
  refine ⟨fun h => ?drw, fun h => ?ldB, fun h => ⟨?store, ?load⟩⟩
  all_goals exact exec_fault_of_ownError (decide_eq_false (by omega)) rfl

/-- Settles O48: the check of both is that Vx names a key. -/
theorem keyIndexPastFifteenFaults : Obligations.KeyIndexPastFifteenFaults := by
  intro x s h
  exact ⟨exec_fault_of_ownError (decide_eq_false (by omega)) rfl,
    exec_fault_of_ownError (decide_eq_false (by omega)) rfl⟩

/-! ## The wait for a key, which completes either way (R183) -/

theorem exec_ldVxK_of_some (x : Reg) {s : State} {k : Nibble} (hk : s.lowestKey = some k) :
    exec (.ldVxK x) s = .next (s.setReg x (k.setWidth 8)).advance := by
  simp [exec, execLdVxK, hk]

theorem exec_ldVxK_of_none (x : Reg) {s : State} (hk : s.lowestKey = none) : exec (.ldVxK x) s = .next s := by
  simp [exec, execLdVxK, hk]

/-! ## The step -/

theorem afterExec_ne_refused (i : Instr) (s : State) (r : Refusal) : afterExec (exec i s) ≠ .refused r := by
  cases he : exec i s with
  | next t => simp [afterExec]
  | fault f => simp [afterExec]
  | refused q => exact absurd he (exec_ne_refused i s q)

theorem fetchDecodeExecute_ne_refused (s : State) (r : Refusal) : fetchDecodeExecute s ≠ .refused r := by
  unfold fetchDecodeExecute
  split
  · exact raise_ne_refused _ _ _
  · split
    · exact raise_ne_refused _ _ _
    · exact afterExec_ne_refused _ _ _

theorem step_of_halted {s : State} (h : s.halted = true) : step s = .refused .coreHalted := if_pos h

theorem step_eq_refused_iff {s : State} {r : Refusal} : step s = .refused r ↔ s.halted = true ∧ r = .coreHalted := by
  constructor
  · intro h
    cases hh : s.halted with
    | false =>
      rw [step_of_not_halted hh] at h
      exact absurd h (fetchDecodeExecute_ne_refused _ r)
    | true =>
      rw [step_of_halted hh] at h
      cases h
      exact ⟨rfl, rfl⟩
  · rintro ⟨hh, rfl⟩
    exact step_of_halted hh

/-- Settles O9: fetch, decode and execution never refuse, and every failed tick halts. -/
theorem onlyAHaltedCoreIsRefused : Obligations.OnlyAHaltedCoreIsRefused := by
  refine ⟨fun s r => step_eq_refused_iff, fun s f h => step_of_halted ?_⟩
  rw [failedTickIsAtomic s f h]

theorem instrAtPc_eq_some {s : State} {i : Instr} (h : s.instrAtPc = some i) :
    ∃ w, s.fetch = some w ∧ decode w = .ok i := by
  unfold State.instrAtPc at h
  split at h
  · cases h
  · rename_i w hw
    split at h <;> cases h
    exact ⟨w, hw, ‹_›⟩

/-- No check looks at Dirty or the timers. -/
theorem checkOk_atFetch (s : State) (i : Instr) : checkOk s.atFetch i = checkOk s i := by
  cases i <;> rfl

/-- Settles O10: a step that goes on ran the instruction at pc, whose check held; and back, that instruction
completes. -/
theorem stepGoesOnIffEveryCheckHolds : Obligations.StepGoesOnIffEveryCheckHolds := by
  intro s
  constructor
  · rintro ⟨t, h⟩
    obtain ⟨i, u, hi, he, -⟩ := step_eq_next_instrAtPc h
    exact ⟨(step_eq_next h).1, i, hi, by rw [← checkOk_atFetch, checkOk_of_exec_next he]⟩
  · rintro ⟨hh, i, hi, hc⟩
    obtain ⟨w, hw, hd⟩ := instrAtPc_eq_some hi
    rw [← checkOk_atFetch] at hc
    obtain ⟨u, hu⟩ := exec_next_of_checkOk hc
    exact ⟨u.nextInput, by rw [step_of_decode_ok hh hw hd, hu, afterExec]⟩

end Sys2Proof.Machine
end

