-- ==== Sys2Proof/Proofs/Effects.lean ====
section
/-! PROOFS. What an instruction that goes on does, by the part of the state it writes, and from it the frame of every
instruction (10_state.md R21 to R27, 20_memory.md R50, R53). -/

namespace Sys2Proof.Machine

/-! ## The effects -/

/-- What `exec i` leaves of `s`, by the part of the state that `i` writes. `exec_effect` ties it to the model. -/
inductive Effect (s : State) : Instr → State → Prop where
  /-- Nothing but pc. -/
  | pcOnly {i : Instr} (p : Word) : Effect s i { s with pc := p }
  /-- General registers, among those that the instruction may write. -/
  | regs {i : Instr} (v : Vector Byte 16) (hv : ∀ r : Reg, writesReg i r = false → v[r.toNat] = s.reg r) :
      Effect s i { s with V := v, pc := s.pc + 2 }
  /-- I. -/
  | index {i : Instr} (hi : writesI i = true) (a : Word) : Effect s i { s with I := a, pc := s.pc + 2 }
  /-- The bytes at I. -/
  | stores {i : Instr} : Effect s i
      { s with Mem := Memory.writeBytes s.Mem s.I.toNat (storedList s i), pc := s.pc + 2 }
  /-- A push. -/
  | calls {nnn : Imm12} (hs : s.SP.val < 16) : Effect s (.call nnn)
      { s with Stack := s.Stack.set s.SP.val (s.pc + 2) hs, SP := ⟨s.SP.val + 1, by omega⟩, pc := zextImm nnn }
  /-- A pop. -/
  | returns (hs : 0 < s.SP.val) : Effect s .ret
      { s with SP := ⟨s.SP.val - 1, by omega⟩, pc := s.Stack[s.SP.val - 1] }
  /-- The display, and VF. -/
  | draws {i : Instr} (hi : writesDisplay i = true) (g : Grid) (v : Vector Byte 16)
      (hv : ∀ r : Reg, writesReg i r = false → v[r.toNat] = s.reg r) :
      Effect s i { s with V := v, Pix := g, Dirty := true, pc := s.pc + 2 }
  /-- DT. -/
  | delayTimer {x : Reg} : Effect s (.ldDT x) { s with DT := s.reg x, pc := s.pc + 2 }
  /-- ST. -/
  | soundTimer {x : Reg} : Effect s (.ldST x) { s with ST := s.reg x, pc := s.pc + 2 }

/-- One register write and an advance. -/
theorem effect_setReg {i : Instr} (s : State) (x : Reg) (v : Byte) (hx : ∀ r, writesReg i r = false → r ≠ x) :
    Effect s i (s.setReg x v).advance :=
  .regs _ fun r hr => reg_setReg_of_ne s v (hx r hr)

/-- Two register writes and an advance. -/
theorem effect_setReg_setReg {i : Instr} (s : State) (x y : Reg) (v u : Byte)
    (hr : ∀ r, writesReg i r = false → r ≠ x ∧ r ≠ y) : Effect s i ((s.setReg x v).setReg y u).advance :=
  .regs _ fun r h => (reg_setReg_of_ne _ u (hr r h).2).trans (reg_setReg_of_ne s v (hr r h).1)

theorem effect_loadRange (s : State) (x : Reg) : Effect s (.loadRegs x) (s.loadRange (x.toNat + 1)).advance := by
  rw [loadRange_eq]
  refine .regs _ fun r hr => ?_
  have hx : ¬ r.toNat < x.toNat + 1 := by simpa [writesReg, Nat.lt_succ_iff] using hr
  exact (loadRange_reg s _ x.isLt r).trans (if_neg hx)

/-- Every instruction that goes on has one of the effects. -/
theorem exec_effect {i : Instr} {s t : State} (h : exec i s = .next t) : Effect s i t := by
  cases i
  case cls => cases h; exact .draws rfl _ _ fun _ _ => rfl
  case drw =>
    obtain ⟨-, g, c, -, rfl⟩ := execDrw_eq_next h
    exact .draws rfl g _ fun r hr => reg_setReg_of_ne s _ (by simpa [writesReg] using hr)
  case ret => obtain ⟨hs, rfl⟩ := execRet_eq_next h; exact .returns hs
  case call => obtain ⟨hs, rfl⟩ := execCall_eq_next h; exact .calls hs
  case skp | sknp | seImm | sneImm | seReg | sneReg => rw [exec_skip_eq_next rfl h]; exact .pcOnly _
  case sys | jp | jpV0 => cases h; exact .pcOnly _
  case ldI | addI | ldF => cases h; exact .index rfl _
  case ldB | storeRegs => obtain ⟨-, rfl⟩ := storeAtI_eq_next h; exact .stores
  case loadRegs x => obtain ⟨-, rfl⟩ := execLoadRegs_eq_next h; exact effect_loadRange s x
  case ldDT => cases h; exact .delayTimer
  case ldST => cases h; exact .soundTimer
  case ldVxK x =>
    obtain ⟨k, -, he⟩ | ⟨-, he⟩ := execLdVxK_cases (x := x) s
    · cases he.symm.trans h
      exact effect_setReg s x _ (by simp [writesReg])
    · cases he.symm.trans h
      exact .pcOnly s.pc
  case addReg x y | sub x y | subn x y | shr x y | shl x y =>
    cases h
    exact effect_setReg_setReg s _ _ _ _ (by simp [writesReg, and_comm])
  all_goals
    cases h
    exact effect_setReg s _ _ (by simp [writesReg])

/-! ## The frames -/

/-- Settles O18: only the effects on registers and the display write V, within `writesReg`. -/
theorem onlyDestinationsAndFlagsChange : Obligations.OnlyDestinationsAndFlagsChange := by
  intro i s t r h hr
  cases exec_effect h
  case regs v hv => exact hv r hr
  case draws hv => exact hv r hr
  all_goals rfl

/-- Settles O19: only the effect on I writes it. -/
theorem onlyThreeInstructionsWriteI : Obligations.OnlyThreeInstructionsWriteI := by
  intro i s t h hi
  cases exec_effect h
  case index _ hw => exact absurd hw (by simp [hi])
  all_goals rfl

/-- Settles O20: only a push writes an entry, the one at SP, and only a pop also moves SP. -/
theorem onlyCallAndRetUseTheStack : Obligations.OnlyCallAndRetUseTheStack := by
  intro i s t h
  cases exec_effect h
  case calls nnn hs =>
    exact ⟨fun hne => absurd rfl (hne nnn), fun k hk => Vector.getElem_set_ne hs _ (Ne.symm hk)⟩
  case returns hs => exact ⟨fun _ => ⟨rfl, fun hne => absurd rfl hne⟩, fun _ _ => rfl⟩
  all_goals exact ⟨fun _ => ⟨rfl, fun _ => rfl⟩, fun _ _ => rfl⟩

theorem exec_sameDisplay {i : Instr} {s t : State} (h : exec i s = .next t) (hi : writesDisplay i = false) :
    SameDisplay s t := by
  cases exec_effect h
  case draws _ _ hw _ => exact absurd hw (by simp [hi])
  all_goals exact ⟨fun _ _ => rfl, rfl⟩

theorem exec_dirty {i : Instr} {s t : State} (h : exec i s = .next t) (hi : writesDisplay i = true) :
    t.Dirty = true := by
  cases i
  case cls => cases h; rfl
  case drw => obtain ⟨-, g, c, -, rfl⟩ := execDrw_eq_next h; rfl
  all_goals cases hi

/-- Settles O21: only the effect on the display writes a pixel or Dirty, and CLS and DRW both set Dirty. -/
theorem onlyClsAndDrwWriteTheDisplay : Obligations.OnlyClsAndDrwWriteTheDisplay :=
  fun _ _ _ h => ⟨exec_sameDisplay h, exec_dirty h⟩

/-- Settles O22: only the effect on memory writes it, in one run of bytes from I. -/
theorem onlyTwoInstructionsStore : Obligations.OnlyTwoInstructionsStore := by
  intro i s t h a ha
  cases exec_effect h
  case stores =>
    refine read_writeBytes_outside _ _ _ _ ?_
    rw [storedList_length]
    by_contra hin
    exact ha (a - s.I.toNat) (by omega) (by rw [State.dataAddr]; omega)
  all_goals rfl

theorem exec_sameHost {i : Instr} {s t : State} (h : exec i s = .next t) : SameHost s t := by
  cases exec_effect h
  all_goals exact ⟨rfl, rfl, rfl, rfl⟩

/-- Settles O23: the timers are those of `exec_timers`, and no effect is on the host's part. -/
theorem timersAndInputsAreKept : Obligations.TimersAndInputsAreKept := by
  intro i s t h
  obtain ⟨hDT, hST⟩ := exec_timers h
  exact ⟨fun hi => by rw [hDT, dtAfter_of_ne s hi], fun hi => by rw [hST, stAfter_of_ne s hi], exec_sameHost h⟩

end Sys2Proof.Machine
end

