-- ==== Sys2Proof/Proofs/Invariant.lean ====
section
/-! PROOFS. The invariant of reachable states (10_state.md R34): it holds at reset, the parts of a step around execution
keep it, and so does every instruction fetched from a state that has it. -/

namespace Sys2Proof.Machine

/-- Settles O53: memory holds no cell at reset, and the rest is zero. -/
theorem resetHasTheInvariant : Obligations.ResetHasTheInvariant :=
  ⟨wf_reset, by decide, by decide, rfl⟩

/-! ## Around execution -/

theorem inv_atFetch {s : State} (h : Inv s) : Inv s.atFetch := ⟨h.mem, h.pc, h.stack, h.running⟩

theorem inv_nextInput {s : State} (h : Inv s) : Inv s.nextInput where
  mem := by rw [nextInput_Mem]; exact h.mem
  pc := by rw [nextInput_pc]; exact h.pc
  stack := by simpa only [nextInput_Stack] using h.stack
  running := by rw [nextInput_halted]; exact h.running

/-! ## Execution, part by part -/

theorem exec_wf {i : Instr} {s t : State} (hm : Memory.wf s.Mem) (h : exec i s = .next t) : Memory.wf t.Mem := by
  cases exec_effect h
  case stores => exact wf_writeBytes _ _ hm
  all_goals exact hm

/-- The address that CALL pushes is at most 0x1000, since the CALL was fetched (R91, R103). -/
theorem exec_stack_le {i : Instr} {s t : State} (hpc : s.pc.toNat ≤ 0xFFE)
    (hst : ∀ k : Fin 16, (s.Stack[k.val]).toNat ≤ 0x1000) (h : exec i s = .next t) (k : Fin 16) :
    (t.Stack[k.val]).toNat ≤ 0x1000 := by
  cases exec_effect h
  case calls nnn hs =>
    rw [Vector.getElem_set]
    split
    · rw [toNat_pc_add_two hpc]; omega
    · exact hst k
  all_goals exact hst k

/-- JP V0 reaches furthest, to 0xFF + 0xFFF (R109). -/
theorem pcAfter_le {s : State} (hpc : s.pc.toNat ≤ 0xFFE) (hst : ∀ k : Fin 16, (s.Stack[k.val]).toNat ≤ 0x1000)
    (i : Instr) : pcAfter s i ≤ 0x10FE := by
  cases i
  case ret =>
    have hlt : s.SP.val - 1 < 16 := by omega
    simp only [pcAfter, Vector.getElem?_eq_getElem hlt, Option.getD_some]
    exact (hst ⟨s.SP.val - 1, hlt⟩).trans (by decide)
  case jp nnn => have := nnn.isLt; simp only [pcAfter]; omega
  case call nnn => have := nnn.isLt; simp only [pcAfter]; omega
  case jpV0 nnn =>
    have := nnn.isLt
    have := (s.reg 0x0#4).isLt
    simp only [pcAfter]
    omega
  all_goals
    simp only [pcAfter]
    split <;> omega

/-- An instruction that was fetched keeps the invariant. -/
theorem exec_inv {i : Instr} {s t : State} (hi : Inv s) (hpc : s.pc.toNat ≤ 0xFFE) (h : exec i s = .next t) :
    Inv t where
  mem := exec_wf hi.mem h
  pc := by rw [exec_pc_toNat hpc h]; exact pcAfter_le hpc hi.stack i
  stack := exec_stack_le hpc hi.stack h
  running := by rw [(exec_sameHost h).1]; exact hi.running

/-- Settles O54: the host's turn, the timers and the next inputs leave the four parts alone, and the instruction was
fetched at a pc of at most 0xFFE. -/
theorem stepKeepsTheInvariant : Obligations.StepKeepsTheInvariant := by
  intro s t hs h
  obtain ⟨-, w, i, u, hf, -, he, rfl⟩ := step_eq_next h
  exact inv_nextInput (exec_inv (inv_atFetch hs) (fetch_eq_some hf).1 he)

end Sys2Proof.Machine
end

