-- ==== Sys2Proof/Proofs/Host.lean ====
section
/-! PROOFS. What a step does with the host's side of the state (60_exceptions.md R213, R214): Dirty and its clearing,
the next inputs, and a word placed from outside; and that execution never reads ST or Dirty (10_state.md R25, R31). -/

namespace Sys2Proof.Machine

/-! ## Dirty over a step -/

theorem exec_dirty_iff {i : Instr} {s t : State} (h : exec i s = .next t) :
    t.Dirty = true ↔ writesDisplay i = true ∨ s.Dirty = true := by
  cases hi : writesDisplay i with
  | true => simp [exec_dirty h hi]
  | false => simp [(exec_sameDisplay h hi).2]

theorem atFetch_dirty_iff (s : State) : s.atFetch.Dirty = true ↔ s.Dirty = true ∧ s.input.clearDirty = false := by
  simp

/-- Settles O12: the host's turn comes before the instruction at pc, which sets Dirty or keeps it. -/
theorem dirtyStaysUntilTheHostClearsIt : Obligations.DirtyStaysUntilTheHostClearsIt := by
  intro s t h
  obtain ⟨i, u, hi, he, rfl⟩ := step_eq_next_instrAtPc h
  rw [nextInput_Dirty, exec_dirty_iff he, atFetch_dirty_iff, hi]
  simp

/-! ## The next inputs -/

theorem nextInput_of_cons {s : State} {i : TickInput} {rest : List TickInput} (h : s.supplied = i :: rest) :
    s.nextInput = { s with input := i, supplied := rest } := by
  simp [State.nextInput, h]

theorem nextInput_of_nil {s : State} (h : s.supplied = []) :
    s.nextInput = { s with input := Config.freeInput s.drawn, drawn := s.drawn + 1 } := by
  simp [State.nextInput, h]

/-- Settles O13: execution keeps the inputs still to come, and the step then takes the next one. -/
theorem nextInputIsSuppliedOrFree : Obligations.NextInputIsSuppliedOrFree := by
  intro s t h
  obtain ⟨i, u, -, he, rfl⟩ := step_eq_next_instrAtPc h
  obtain ⟨-, -, hsup, hdrawn⟩ : SameHost s.atFetch u := exec_sameHost he
  refine ⟨fun i rest hs => ?settled, fun hs => ?free⟩
  case settled =>
    rw [nextInput_of_cons (hsup.trans hs)]
    exact ⟨rfl, rfl, hdrawn⟩
  case free =>
    have hnil : u.supplied = [] := hsup.trans hs
    rw [nextInput_of_nil hnil, hdrawn]
    exact ⟨rfl, hnil, rfl⟩

/-! ## A placed word -/

theorem tableWord_16 {w : Nat} (h : w < 65536) : tableWord 16 w = BitVec.ofNat 16 w := by
  rw [tableWord, Nat.mod_eq_of_lt (show w < 2 ^ 16 from h)]

/-- The two bytes placed are the two bytes fetched, high byte first. -/
theorem fetch_placeWord {s : State} (w : Word) (hm : Memory.wf s.Mem) (hpc : s.pc.toNat + 1 ≤ 0xFFF) :
    (s.placeWord w).fetch = some w := by
  have hread (k : Nat) (hk : k < [highByte w, lowByte w].length) :
      (s.placeWord w).byteAt (s.pc.toNat + k) = [highByte w, lowByte w][k] :=
    read_writeBytes_inside _ k _ hm hk (show s.pc.toNat + 2 ≤ 4096 by omega)
  have hhigh : (s.placeWord w).byteAt s.pc.toNat = highByte w := hread 0 (by simp)
  have hlow : (s.placeWord w).byteAt (s.pc.toNat + 1) = lowByte w := hread 1 (by simp)
  rw [fetch_of_le (s := s.placeWord w) (show s.pc.toNat ≤ 0xFFE by omega), placeWord_pc, hhigh, hlow,
    wordOfBytes_high_low]

/-- Settles O14: one run of two byte writes at pc, read back by the fetch and missed by every other read. -/
theorem placedWordIsFetched : Obligations.PlacedWordIsFetched := by
  intro s w hm hpc hw
  rw [State.withFetchWord, tableWord_16 hw]
  refine ⟨fetch_placeWord _ hm hpc, fun a h0 h1 => ?_, rfl,
    fun _ _ => rfl, rfl, ⟨rfl, rfl⟩, ⟨rfl, rfl⟩, ⟨fun _ _ => rfl, rfl⟩, rfl, rfl, rfl, rfl⟩
  exact read_writeBytes_outside _ _ _ _ (by simp only [List.length_cons, List.length_nil]; omega)

/-! ## ST and Dirty are never read -/

/-- A state with another ST and Dirty. -/
abbrev State.withStDirty (s : State) (st : Byte) (d : Bool) : State := { s with ST := st, Dirty := d }

theorem checkOk_withStDirty (s : State) (st : Byte) (d : Bool) (i : Instr) :
    checkOk (s.withStDirty st d) i = checkOk s i := by
  cases i <;> rfl

theorem ownError_withStDirty {s : State} {w : Word} {i : Instr} {f : Fault} (st : Byte) (d : Bool)
    (h : ownError s w i = some f) :
    ownError (s.withStDirty st d) w i = some (f.withFinal (f.final.withStDirty st d)) := by
  cases i <;> cases h <;> rfl

theorem loadRange_withStDirty (s : State) (st : Byte) (d : Bool) (n : Nat) :
    (s.withStDirty st d).loadRange n = (s.loadRange n).withStDirty st d := by
  induction n with
  | zero => rfl
  | succ n ih => rw [State.loadRange, ih]; rfl

/-- What an instruction leaves of a state with another ST and Dirty: the same, but for what it keeps of these two. -/
theorem exec_withStDirty_next {i : Instr} {s t t' : State} {st : Byte} {d : Bool} (h : exec i s = .next t)
    (h' : exec i (s.withStDirty st d) = .next t') :
    t' = t.withStDirty (if writesST i then t.ST else st) (if writesDisplay i then true else d) := by
  cases i
  case ret => obtain ⟨-, rfl⟩ := execRet_eq_next h; obtain ⟨-, rfl⟩ := execRet_eq_next h'; rfl
  case call => obtain ⟨-, rfl⟩ := execCall_eq_next h; obtain ⟨-, rfl⟩ := execCall_eq_next h'; rfl
  case skp | sknp => rw [exec_skip_eq_next rfl h, exec_skip_eq_next rfl h']; rfl
  case ldB | storeRegs => obtain ⟨-, rfl⟩ := storeAtI_eq_next h; obtain ⟨-, rfl⟩ := storeAtI_eq_next h'; rfl
  case drw =>
    obtain ⟨-, g, c, hb, rfl⟩ := execDrw_eq_next h
    obtain ⟨-, g', c', hb', rfl⟩ := execDrw_eq_next h'
    cases hb.symm.trans hb'
    rfl
  case loadRegs =>
    obtain ⟨-, rfl⟩ := execLoadRegs_eq_next h
    obtain ⟨-, rfl⟩ := execLoadRegs_eq_next h'
    rw [loadRange_withStDirty]
    rfl
  case ldVxK x =>
    cases hk : s.lowestKey with
    | some k =>
      cases (exec_ldVxK_of_some x hk).symm.trans h
      cases (exec_ldVxK_of_some x (s := s.withStDirty st d) hk).symm.trans h'
      rfl
    | none =>
      cases (exec_ldVxK_of_none x hk).symm.trans h
      cases (exec_ldVxK_of_none x (s := s.withStDirty st d) hk).symm.trans h'
      rfl
  all_goals cases h; cases h'; rfl

/-- Settles O24: the check, the effect and the error are those of the state as it was. -/
theorem stAndDirtyAreNeverRead : Obligations.StAndDirtyAreNeverRead := by
  intro i s st d
  refine ⟨fun t h => ?goesOn, fun f h => ?stops⟩
  case goesOn =>
    obtain ⟨t', h'⟩ := exec_next_of_checkOk ((checkOk_withStDirty s st d i).trans (checkOk_of_exec_next h))
    exact h'.trans (congrArg _ (exec_withStDirty_next h h'))
  case stops =>
    obtain ⟨hc, hf⟩ := exec_eq_fault h
    exact exec_fault_of_ownError ((checkOk_withStDirty s st d i).trans hc) (ownError_withStDirty st d hf)

end Sys2Proof.Machine
end

