-- ==== Sys2Proof/Proofs/Draws.lean ====
section
/-! PROOFS. The display instructions (43_display.md R160 to R163): CLS, one DRW as the set of pixels its sprite covers,
and two DRWs of the same sprite. -/

namespace Sys2Proof.Machine

theorem exec_cls (s : State) : exec .cls s = .next { s with Pix := Grid.clear, Dirty := true, pc := s.pc + 2 } := rfl

/-- Settles O44: one next state, whose buffer is the clear one. -/
theorem clearScreen : Obligations.ClearScreen := fun s =>
  ⟨_, exec_cls s, pixel_clear, rfl, fun _ _ => rfl, rfl, ⟨rfl, rfl⟩, ⟨rfl, rfl⟩, fun _ => rfl, ⟨rfl, rfl, rfl, rfl⟩,
    rfl⟩

/-! ## The pixels that a draw covers -/

/-- Pixel (r, c) is under a 1 bit of the sprite that DRW x, y, n draws in `s`. -/
abbrev drawCovers (s : State) (x y : Reg) (n : Nibble) (r : Fin 32) (c : Fin 64) : Prop :=
  spriteCovers s (s.reg x).toNat (s.reg y).toNat n.toNat r c

theorem readBytes_length (m : Memory) (a n : Nat) : (Memory.readBytes m a n).length = n := by
  simp [Memory.readBytes]

theorem readBytes_get (m : Memory) (a n k : Nat) (h : k < (Memory.readBytes m a n).length) :
    (Memory.readBytes m a n)[k] = Memory.read m (a + k) := by
  simp [Memory.readBytes]

/-- The bytes that the blitter is given are those that `spriteCovers` reads. -/
theorem coveredBy_readBytes_iff {s : State} {cx cy n : Nat} {r : Fin 32} {c : Fin 64} :
    coveredBy cx cy (Memory.readBytes s.Mem (s.dataAddr 0) n) r c ↔ spriteCovers s cx cy n r c := by
  constructor
  · rintro ⟨k, hk, rfl, j, hj, rfl, hb⟩
    rw [readBytes_get] at hb
    exact ⟨k, by simpa [readBytes_length] using hk, j, hj, rfl, rfl, hb⟩
  · rintro ⟨k, hk, j, hj, hr, hc, hb⟩
    refine ⟨k, by simpa [readBytes_length] using hk, Fin.ext hr, j, hj, Fin.ext hc, ?_⟩
    rw [readBytes_get]
    exact hb

/-- A draw that goes on inverts the covered pixels and no other, and VF tells of one that was on. -/
theorem exec_drw_spec {x y : Reg} {n : Nibble} {s t : State} (h : exec (.drw x y n) s = .next t) :
    (∀ r c, (drawCovers s x y n r c → t.pixel r c = !s.pixel r c) ∧
      (¬ drawCovers s x y n r c → t.pixel r c = s.pixel r c)) ∧
    ∃ hit : Bool, t.reg VF = flagByte hit ∧
      (hit = true ↔ ∃ r c, drawCovers s x y n r c ∧ s.pixel r c = true) := by
  obtain ⟨-, g, hit, hg, rfl⟩ := execDrw_eq_next h
  obtain ⟨hpix, hhit⟩ := blitRows_spec (s.reg x).toNat (s.reg y).toNat
    (Memory.readBytes s.Mem (s.dataAddr 0) n.toNat) (s.Pix, false) (by rw [readBytes_length]; omega)
  simp only [hg, coveredBy_readBytes_iff, Bool.false_eq_true, false_or] at hpix hhit
  exact ⟨hpix, hit, by simp, hhit⟩

theorem flagByte_eq_one_iff {b : Bool} : flagByte b = 1 ↔ b = true := by cases b <;> decide

theorem flagByte_eq_zero_or_one (b : Bool) : flagByte b = 0 ∨ flagByte b = 1 := by cases b <;> decide

/-- Settles O45: the check holds; the pixels and the flag are those of `exec_drw_spec`, the frame that of the one next
state. -/
theorem drawSprite : Obligations.DrawSprite := by
  intro x y n s hfit
  obtain ⟨t, h⟩ := exec_next_of_checkOk (i := .drw x y n) (decide_eq_true hfit)
  obtain ⟨hpix, hit, hvf, hhit⟩ := exec_drw_spec h
  refine ⟨t, h, fun r c => (hpix r c).1, fun r c => (hpix r c).2, fun hon => ?on, fun hoff => ?off,
    exec_dirty h rfl, ?frame⟩
  case on => rw [hvf, hhit.2 hon]; rfl
  case off =>
    have hno : hit = false := by
      rw [← Bool.not_eq_true, hhit]
      rintro ⟨r, c, hc, hp⟩
      rw [hoff r c hc] at hp
      cases hp
    rw [hvf, hno]; rfl
  case frame =>
    obtain ⟨-, g, c, -, rfl⟩ := execDrw_eq_next h
    exact ⟨fun r hr => reg_setReg_of_ne _ _ (List.ne_of_not_mem_cons hr), rfl, ⟨rfl, rfl⟩, ⟨rfl, rfl⟩, fun _ => rfl,
      ⟨rfl, rfl, rfl, rfl⟩, rfl⟩

/-! ## The same sprite twice -/

theorem drawCovers_congr {s u : State} {x y : Reg} {n : Nibble} (hI : u.I = s.I) (hx : u.reg x = s.reg x)
    (hy : u.reg y = s.reg y) (hm : ∀ k, k < n.toNat → u.byteAt (s.dataAddr k) = s.byteAt (s.dataAddr k))
    (r : Fin 32) (c : Fin 64) : drawCovers u x y n r c ↔ drawCovers s x y n r c := by
  unfold drawCovers spriteCovers
  rw [hI, hx, hy]
  refine exists_congr fun k => and_congr_right fun hk => ?_
  rw [show u.byteAt (s.I.toNat + k) = s.byteAt (s.I.toNat + k) from hm k hk]

/-- Settles O46: both draws cover the same pixels, so each is inverted twice or never; the second draw hits a pixel
exactly where the first turned one on. -/
theorem secondDrawRestoresTheBuffer : Obligations.SecondDrawRestoresTheBuffer := by
  intro x y n s t u h hI hx hy hm hu
  have hfit : checkOk u (.drw x y n) = true := by
    rw [show checkOk u (.drw x y n) = checkOk s (.drw x y n) by simp only [checkOk, hI], checkOk_of_exec_next h]
  obtain ⟨v, hv⟩ := exec_next_of_checkOk hfit
  obtain ⟨hs, -⟩ := exec_drw_spec h
  obtain ⟨ht, hit, hvf, hhit⟩ := exec_drw_spec hv
  simp only [drawCovers_congr hI hx hy hm, hu] at ht hhit
  refine ⟨v, hv, fun r c => ?restored, by rw [hvf]; exact flagByte_eq_zero_or_one hit, ?flag⟩
  case restored =>
    by_cases hc : drawCovers s x y n r c
    · rw [(ht r c).1 hc, (hs r c).1 hc, Bool.not_not]
    · rw [(ht r c).2 hc, (hs r c).2 hc]
  case flag =>
    rw [hvf, flagByte_eq_one_iff, hhit]
    refine exists_congr fun r => exists_congr fun c => ?_
    by_cases hc : drawCovers s x y n r c
    · simp [(hs r c).1 hc, hc]
    · simp [(hs r c).2 hc, hc]

end Sys2Proof.Machine
end

