-- ==== Sys2Proof/Proofs/Transfers.lean ====
section
/-! PROOFS. The transfers of control and the skips, one by one (40_control_flow.md R101 to R109; 44_timers_and_keys.md
R180, R181), and a RET after its CALL. -/

namespace Sys2Proof.Machine

/-! ## Jumps -/

theorem exec_jp (nnn : Imm12) (s : State) : exec (.jp nnn) s = .next (s.setPc (zextImm nnn)) := rfl

theorem exec_jpV0 (nnn : Imm12) (s : State) :
    exec (.jpV0 nnn) s = .next (s.setPc (zextByte (s.reg 0x0#4) + zextImm nnn)) := rfl

/-- Settles O26: both are one move of pc, to a value that 16 bits hold exactly. -/
theorem jumpsSetPcOnly : Obligations.JumpsSetPcOnly := fun nnn s =>
  ⟨⟨_, exec_jp nnn s, zextImm_toNat nnn, onlyPc_setPc s _⟩,
    ⟨_, exec_jpV0 nnn s, toNat_zextByte_add_zextImm _ nnn, onlyPc_setPc s _⟩⟩

/-! ## CALL and RET -/

/-- Settles O27: with room the check of CALL holds and what it leaves is `execCall_eq_next`'s; with none it raises its
own error. -/
theorem callPushesAndJumps : Obligations.CallPushesAndJumps := by
  intro nnn s
  refine ⟨fun hs => ?room, fun hs => exec_fault_of_ownError (decide_eq_false (by omega)) rfl⟩
  case room =>
    obtain ⟨t, h⟩ := exec_next_of_checkOk (i := .call nnn) (decide_eq_true hs)
    obtain ⟨_, rfl⟩ := execCall_eq_next h
    exact ⟨_, h, zextImm_toNat nnn, rfl, Vector.getElem_set_self hs,
      fun k hk => Vector.getElem_set_ne hs _ (Ne.symm hk),
      fun _ _ => rfl, rfl, ⟨rfl, rfl⟩, fun _ => rfl, ⟨fun _ _ => rfl, rfl⟩, rfl, rfl, rfl, rfl⟩

/-- Settles O28: with an entry the check of RET holds and what it leaves is `execRet_eq_next`'s; with none it raises its
own error. -/
theorem retPopsIntoPc : Obligations.RetPopsIntoPc := by
  intro s
  refine ⟨fun hs => ?entry, fun hs => exec_fault_of_ownError (decide_eq_false (by omega)) rfl⟩
  case entry =>
    obtain ⟨t, h⟩ := exec_next_of_checkOk (i := .ret) (decide_eq_true hs)
    obtain ⟨_, rfl⟩ := execRet_eq_next h
    exact ⟨_, h, rfl, rfl, rfl,
      fun _ _ => rfl, rfl, ⟨rfl, rfl⟩, fun _ => rfl, ⟨fun _ _ => rfl, rfl⟩, rfl, rfl, rfl, rfl⟩

/-- Settles O29: the CALL counted one entry, so a RET completes; the entry it pops is the one the CALL wrote at its
SP. -/
theorem retReturnsPastItsCall : Obligations.RetReturnsPastItsCall := by
  intro nnn s t u h hSP hStack
  obtain ⟨hs, rfl⟩ := execCall_eq_next h
  have hval : u.SP.val - 1 = s.SP.val := by rw [hSP]; exact Nat.add_sub_cancel _ _
  obtain ⟨v, hv⟩ := exec_next_of_checkOk (i := .ret) (s := u) (decide_eq_true (by rw [hSP]; exact Nat.succ_pos _))
  obtain ⟨_, rfl⟩ := execRet_eq_next hv
  exact ⟨_, hv, by simp only [hval, hStack, Vector.getElem_set_self], Fin.ext hval⟩

/-! ## The skips -/

theorem onlyPc_skipIf (s : State) (b : Bool) : OnlyPc s (s.skipIf b) := onlyPc_setPc s _

/-- A skip whose check holds is the move of pc that its condition chooses. -/
theorem exec_skip {i : Instr} {s : State} {b : Bool} (hc : checkOk s i = true) (hb : skipCondition s i = some b) :
    exec i s = .next (s.skipIf b) := by
  obtain ⟨t, h⟩ := exec_next_of_checkOk hc
  rw [h, exec_skip_eq_next hb h]

/-- Settles O30: the four have no check, and their conditions are the comparisons. -/
theorem registerSkips : Obligations.RegisterSkips := by
  intro x y kk s
  refine ⟨⟨_, exec_skip rfl rfl, ?_, onlyPc_skipIf s _⟩, ⟨_, exec_skip rfl rfl, ?_, onlyPc_skipIf s _⟩,
    ⟨_, exec_skip rfl rfl, ?_, onlyPc_skipIf s _⟩, ⟨_, exec_skip rfl rfl, ?_, onlyPc_skipIf s _⟩⟩
  all_goals simp only [skipIf_pc, beq_iff_eq, bne_iff_ne]

/-- Settles O47: Vx names a key, so the check of both holds, and their condition is that key. -/
theorem keySkips : Obligations.KeySkips := by
  intro x s h
  have hc : decide ((s.reg x).toNat ≤ 15) = true := decide_eq_true (by omega)
  refine ⟨⟨_, exec_skip hc rfl, ?_, onlyPc_skipIf s _⟩, ⟨_, exec_skip hc rfl, ?_, onlyPc_skipIf s _⟩⟩
  all_goals simp [skipIf_pc, h]

end Sys2Proof.Machine
end

