-- ==== Sys2Proof/Proofs/RegisterForms.lean ====
section
/-! PROOFS. The register-to-register forms, the shifts and RND (41_alu.md R122 to R134), and the copies between a
register and a timer or the keypad (44_timers_and_keys.md R182 to R185). -/

namespace Sys2Proof.Machine

/-! ## Copy and logic -/

theorem reg_setReg_advance_self (s : State) (x : Reg) (v : Byte) : (s.setReg x v).advance.reg x = v := by
  rw [reg_advance, reg_setReg_self]

/-- Settles O33: each is one register write, of a value whose bits are the operation on the operands' bits. -/
theorem copyAndLogic : Obligations.CopyAndLogic := by
  intro x y s
  refine ⟨⟨(s.setReg x (s.reg y)).advance, rfl, reg_setReg_advance_self s x _, ?_⟩,
    ⟨(s.setReg x (s.reg x ||| s.reg y)).advance, rfl, fun k => ?or, ?_⟩,
    ⟨(s.setReg x (s.reg x &&& s.reg y)).advance, rfl, fun k => ?and, ?_⟩,
    ⟨(s.setReg x (s.reg x ^^^ s.reg y)).advance, rfl, fun k => ?xor, ?_⟩⟩
  case or => rw [reg_setReg_advance_self, BitVec.getElem_or]
  case and => rw [reg_setReg_advance_self, BitVec.getElem_and]
  case xor => rw [reg_setReg_advance_self, BitVec.getElem_xor]
  all_goals exact ⟨sameRegsBut_setReg_advance s x _, rfl, onlyRegsAndPc_setReg_advance s x _⟩

/-- Settles O36: one register write of the tick's byte and kk, bit by bit. -/
theorem randomAndMask : Obligations.RandomAndMask := by
  intro x kk s
  refine ⟨(s.setReg x (s.input.rnd &&& kk)).advance, rfl, fun k => ?bits, sameRegsBut_setReg_advance s x _, rfl,
    onlyRegsAndPc_setReg_advance s x _⟩
  case bits => rw [reg_setReg_advance_self, BitVec.getElem_and]

/-! ## A result and a flag -/

/-- The state after two register writes and an advance. -/
abbrev State.setTwo (s : State) (x y : Reg) (v u : Byte) : State := ((s.setReg x v).setReg y u).advance

theorem setTwo_reg_snd (s : State) (x y : Reg) (v u : Byte) : (s.setTwo x y v u).reg y = u :=
  reg_setReg_self _ y u

theorem setTwo_reg_fst (s : State) {x y : Reg} (v u : Byte) (h : x ≠ y) : (s.setTwo x y v u).reg x = v :=
  (reg_setReg_of_ne _ u h).trans (reg_setReg_self s x v)

theorem setTwo_reg_of_ne (s : State) {x y r : Reg} (v u : Byte) (hx : r ≠ x) (hy : r ≠ y) :
    (s.setTwo x y v u).reg r = s.reg r :=
  (reg_setReg_of_ne _ u hy).trans (reg_setReg_of_ne s v hx)

theorem onlyRegsAndPc_setTwo (s : State) (x y : Reg) (v u : Byte) : OnlyRegsAndPc s (s.setTwo x y v u) :=
  ⟨rfl, ⟨rfl, rfl⟩, ⟨rfl, rfl⟩, fun _ => rfl, ⟨fun _ _ => rfl, rfl⟩, rfl, rfl, rfl, rfl⟩

theorem sameRegsBut_setTwo_flag_last (s : State) (x : Reg) (v u : Byte) :
    SameRegsBut [x, VF] s (s.setTwo x VF v u) := by
  intro r hr
  simp only [List.mem_cons, List.not_mem_nil, or_false, not_or] at hr
  exact setTwo_reg_of_ne s v u hr.1 hr.2

theorem sameRegsBut_setTwo_flag_first (s : State) (x : Reg) (v u : Byte) :
    SameRegsBut [x, VF] s (s.setTwo VF x v u) := by
  intro r hr
  simp only [List.mem_cons, List.not_mem_nil, or_false, not_or] at hr
  exact setTwo_reg_of_ne s v u hr.2 hr.1

theorem flagByte_decide (p : Prop) [Decidable p] : flagByte (decide p) = if p then 1 else 0 := by
  by_cases hp : p <;> simp [flagByte, hp]

/-- Settles O34: the result is written first and the flag last, so the flag is what VF holds (D8). -/
theorem addAndSubtractWithFlag : Obligations.AddAndSubtractWithFlag := by
  intro x y s
  refine ⟨⟨s.setTwo x VF (addByte (s.reg x) (s.reg y)) (flagByte (carryOut (s.reg x) (s.reg y))), rfl, ?carry,
      fun hx => ?sum, ?_⟩,
    ⟨s.setTwo x VF (subByte (s.reg x) (s.reg y)) (flagByte (noBorrow (s.reg x) (s.reg y))), rfl, ?noBorrow,
      fun hx => ?sub, ?_⟩,
    ⟨s.setTwo x VF (subByte (s.reg y) (s.reg x)) (flagByte (noBorrow (s.reg y) (s.reg x))), rfl, ?noBorrowN,
      fun hx => ?subn, ?_⟩⟩
  case carry | noBorrow | noBorrowN => exact (setTwo_reg_snd s x VF _ _).trans (flagByte_decide _)
  case sum => rw [setTwo_reg_fst s _ _ hx, addByte_toNat]
  case sub | subn => rw [setTwo_reg_fst s _ _ hx, subByte_toNat]
  all_goals exact ⟨sameRegsBut_setTwo_flag_last s x _ _, rfl, onlyRegsAndPc_setTwo s x VF _ _⟩

theorem shiftedOutRight_eq (v : Byte) : shiftedOutRight v = decide (v.toNat % 2 = 1) :=
  Nat.testBit_zero v.toNat

theorem shiftedOutLeft_eq (v : Byte) : shiftedOutLeft v = decide (128 ≤ v.toNat) :=
  (BitVec.msb_eq_getLsbD_last v).symm.trans (BitVec.msb_eq_decide v)

/-- Settles O35: the flag is written first and the result last, so the result is what VF holds when it is Vx (D9). -/
theorem shiftsByOne : Obligations.ShiftsByOne := by
  intro x y s
  refine ⟨⟨s.setTwo VF x (flagByte (shiftedOutRight (s.reg x))) (s.reg x >>> 1), rfl, ?shr, fun hx => ?outRight, ?_⟩,
    ⟨s.setTwo VF x (flagByte (shiftedOutLeft (s.reg x))) (s.reg x <<< 1), rfl, ?shl, fun hx => ?outLeft, ?_⟩⟩
  case shr => rw [setTwo_reg_snd, BitVec.toNat_ushiftRight, Nat.shiftRight_eq_div_pow, Nat.pow_one]
  case shl => rw [setTwo_reg_snd, BitVec.toNat_shiftLeft, Nat.shiftLeft_eq, Nat.mul_comm]
  case outRight => rw [setTwo_reg_fst s _ _ hx.symm, shiftedOutRight_eq, flagByte_decide]
  case outLeft => rw [setTwo_reg_fst s _ _ hx.symm, shiftedOutLeft_eq, flagByte_decide]
  all_goals exact ⟨sameRegsBut_setTwo_flag_first s x _ _, rfl, onlyRegsAndPc_setTwo s VF x _ _⟩

/-! ## Timers and the keypad -/

/-- Settles O50: one write each, of a register or of a timer. -/
theorem timerCopies : Obligations.TimerCopies := by
  intro x s
  refine ⟨⟨(s.setReg x s.DT).advance, rfl, reg_setReg_advance_self s x _, sameRegsBut_setReg_advance s x _, rfl,
      onlyRegsAndPc_setReg_advance s x _⟩,
    ⟨{ s with DT := s.reg x, pc := s.pc + 2 }, rfl, rfl, rfl, ?_⟩,
    ⟨{ s with ST := s.reg x, pc := s.pc + 2 }, rfl, rfl, rfl, ?_⟩⟩
  all_goals exact ⟨fun _ _ => rfl, rfl, ⟨rfl, rfl⟩, fun _ => rfl, ⟨fun _ _ => rfl, rfl⟩, ⟨rfl, rfl, rfl, rfl⟩, rfl⟩

/-- The lowest key down is the one found. -/
theorem lowestKey_of_lowest {s : State} {k : Nibble} (hk : s.keyDown k = true)
    (hlow : ∀ j : Nibble, j.toNat < k.toNat → s.keyDown j = false) : s.lowestKey = some k := by
  cases hf : s.lowestKey with
  | none => exact absurd hk (by simp [lowestKey_eq_none.1 hf k])
  | some j =>
    obtain ⟨hj, hmin⟩ := lowestKey_eq_some hf
    have hjk : ¬ j.toNat < k.toNat := fun hlt => by simp [hlow j hlt] at hj
    have hkj : ¬ k.toNat < j.toNat := fun hlt => by simp [hmin k hlt] at hk
    exact congrArg some (BitVec.eq_of_toNat_eq (by omega))

/-- Settles O49: with no key down nothing is found and nothing changes; else the lowest is found and written to Vx. -/
theorem waitForKeypress : Obligations.WaitForKeypress := by
  intro x s
  refine ⟨fun hup => exec_ldVxK_of_none x (lowestKey_eq_none.2 fun k => hup ⟨k.toNat, k.isLt⟩), fun k hk hlow => ?taken⟩
  case taken =>
    have hfound : s.lowestKey = some (BitVec.ofFin k) :=
      lowestKey_of_lowest hk fun j hj => hlow ⟨j.toNat, j.isLt⟩ hj
    refine ⟨_, exec_ldVxK_of_some x hfound, ?key, sameRegsBut_setReg_advance s x _, rfl,
      onlyRegsAndPc_setReg_advance s x _⟩
    case key =>
      rw [reg_setReg_advance_self, BitVec.toNat_setWidth]
      exact Nat.mod_eq_of_lt (show k.val < 2 ^ 8 by omega)

end Sys2Proof.Machine
end

