-- ==== Sys2Proof/Proofs/Transferred.lean ====
section
/-! PROOFS. The writes of I, and the transfers between registers and memory at I (42_index_and_memory.md R140 to
R147). -/

namespace Sys2Proof.Machine

/-! ## The address register -/

theorem onlyIAndPc_setI_advance (s : State) (a : Word) : OnlyIAndPc s (s.setI a).advance :=
  ⟨fun _ _ => rfl, ⟨rfl, rfl⟩, ⟨rfl, rfl⟩, fun _ => rfl, ⟨fun _ _ => rfl, rfl⟩, rfl, rfl, rfl, rfl⟩

/-- Settles O37: each is one write of I; five times a byte fits in 16 bits. -/
theorem addressRegisterWrites : Obligations.AddressRegisterWrites := by
  intro x nnn s
  refine ⟨⟨(s.setI (zextImm nnn)).advance, rfl, zextImm_toNat nnn, rfl, onlyIAndPc_setI_advance s _⟩,
    ⟨(s.setI (BitVec.ofNat 16 (s.I.toNat + (s.reg x).toNat))).advance, rfl, BitVec.toNat_ofNat _ _, rfl,
      onlyIAndPc_setI_advance s _⟩,
    ⟨(s.setI (BitVec.ofNat 16 (5 * (s.reg x).toNat))).advance, rfl, ?glyph, rfl, onlyIAndPc_setI_advance s _⟩⟩
  case glyph =>
    have := (s.reg x).isLt
    exact Nat.mod_eq_of_lt (show 5 * (s.reg x).toNat < 2 ^ 16 by omega)

/-! ## Stores -/

/-- A storing instruction whose bytes fit completes, and changes nothing but memory and pc. -/
theorem exec_stores_frame {i : Instr} {s : State} (hi : 0 < storedBytes i) (hok : checkOk s i = true) :
    ∃ t, exec i s = .next t ∧ t.pc = s.pc + 2 ∧ OnlyMemAndPc s t :=
  ⟨_, exec_of_stores hi hok, rfl,
    fun _ _ => rfl, rfl, ⟨rfl, rfl⟩, ⟨rfl, rfl⟩, ⟨fun _ _ => rfl, rfl⟩, rfl, rfl, rfl, rfl⟩

/-- Each byte stored reads back. -/
theorem byteAt_stored {i : Instr} {s t : State} {k : Nat} (hm : Memory.wf s.Mem) (h : exec i s = .next t)
    (hk : k < storedBytes i) : (t.byteAt (s.dataAddr k)).toNat = storedByte s i k := by
  have hi : 0 < storedBytes i := by omega
  have hok := checkOk_of_exec_next h
  cases (exec_of_stores hi hok).symm.trans h
  exact (read_writeBytes_storedList hm ((checkOk_iff_stored_fits s hi).1 hok) _).trans (byteAfter_stored hk)

theorem byteAt_storedReg {x r : Reg} {s t : State} (hm : Memory.wf s.Mem) (h : exec (.storeRegs x) s = .next t)
    (hr : r.toNat ≤ x.toNat) : t.byteAt (s.dataAddr r.toNat) = s.reg r := by
  refine BitVec.eq_of_toNat_eq ((byteAt_stored hm h (Nat.lt_succ_of_le hr)).trans ?_)
  show (s.reg (BitVec.ofNat 4 r.toNat)).toNat = _
  rw [BitVec.ofNat_toNat, BitVec.setWidth_eq]

/-- Settles O38: the three bytes fit, and each reads back as its digit. -/
theorem bcdStore : Obligations.BcdStore := by
  intro x s hm hfit
  obtain ⟨t, h, hpc, hframe⟩ :=
    exec_stores_frame (i := .ldB x) (s := s) (Nat.succ_pos _) (decide_eq_true (by omega))
  have hdigit (k : Nat) (hk : k < 3) : (t.byteAt (s.dataAddr k)).toNat = storedByte s (.ldB x) k :=
    byteAt_stored hm h hk
  exact ⟨t, h, hdigit 0 (by decide), hdigit 1 (by decide), hdigit 2 (by decide),
    fun a ha => onlyTwoInstructionsStore _ s t h a ha, hpc, hframe⟩

/-- Settles O39: the bytes fit, and each reads back as its register. -/
theorem storeRegisterRange : Obligations.StoreRegisterRange := by
  intro x s hm hfit
  obtain ⟨t, h, hpc, hframe⟩ :=
    exec_stores_frame (i := .storeRegs x) (s := s) (Nat.succ_pos _) (decide_eq_true (by omega))
  exact ⟨t, h, fun r hr => byteAt_storedReg hm h hr,
    fun a ha => onlyTwoInstructionsStore _ s t h a fun k hk => ha k (Nat.le_of_lt_succ hk), hpc, hframe⟩

/-! ## Loads -/

theorem exec_loadRegs_reg {x : Reg} {s t : State} (h : exec (.loadRegs x) s = .next t) (r : Reg) :
    t.reg r = if r.toNat ≤ x.toNat then s.byteAt (s.dataAddr r.toNat) else s.reg r := by
  obtain ⟨-, rfl⟩ := execLoadRegs_eq_next h
  rw [reg_advance, loadRange_reg s _ x.isLt]
  simp only [Nat.lt_succ_iff, State.dataAddr]

theorem onlyRegsAndPc_loadRange_advance (s : State) (n : Nat) : OnlyRegsAndPc s (s.loadRange n).advance := by
  rw [loadRange_eq]
  exact ⟨rfl, ⟨rfl, rfl⟩, ⟨rfl, rfl⟩, fun _ => rfl, ⟨fun _ _ => rfl, rfl⟩, rfl, rfl, rfl, rfl⟩

/-- Settles O40: the bytes fit, so the load completes, one register write for each. -/
theorem loadRegisterRange : Obligations.LoadRegisterRange := by
  intro x s hfit
  obtain ⟨t, h⟩ := exec_next_of_checkOk (i := .loadRegs x) (s := s) (decide_eq_true (by omega))
  refine ⟨t, h, exec_loadRegs_reg h, pc_of_onlyAdvances rfl h, ?_⟩
  obtain ⟨-, rfl⟩ := execLoadRegs_eq_next h
  exact onlyRegsAndPc_loadRange_advance s _

/-- Settles O42: the two check the same bounds, the store keeps I (D13), and the load reads the bytes stored. -/
theorem storeThenLoadRestores : Obligations.StoreThenLoadRestores := by
  intro x s t u hm h hI hbytes
  have htI : t.I = s.I := onlyThreeInstructionsWriteI _ s t h rfl
  have hok : checkOk u (.loadRegs x) = true := by
    rw [show checkOk u (.loadRegs x) = checkOk s (.storeRegs x) by simp only [checkOk, hI, htI], checkOk_of_exec_next h]
  obtain ⟨v, hv⟩ := exec_next_of_checkOk hok
  refine ⟨v, hv, fun r hr => ?_⟩
  calc v.reg r = u.byteAt (u.dataAddr r.toNat) := (exec_loadRegs_reg hv r).trans (if_pos hr)
    _ = t.byteAt (t.dataAddr r.toNat) := by
      rw [show u.dataAddr r.toNat = t.dataAddr r.toNat by simp only [State.dataAddr, hI], hbytes _ hr]
    _ = t.byteAt (s.dataAddr r.toNat) := by simp only [State.dataAddr, htI]
    _ = s.reg r := byteAt_storedReg hm h hr

end Sys2Proof.Machine
end

