-- ==== Sys2Proof/Proofs/Loading.lean ====
section
/-! PROOFS. The state at reset (10_state.md R33) and the one that a load leaves (70_reset_and_hazards.md R230 to
R232). -/

namespace Sys2Proof.Machine

/-! ## Reset -/

theorem resetByte_of_ge {a : Nat} (h : 80 ≤ a) : resetByte a = 0 := by
  rw [resetByte, List.getD_eq_default]
  rw [Vector.length_toList]
  exact h

theorem resetByte_of_lt (a : Fin 80) : resetByte a.val = Config.font[a.val] := by
  have ha : a.val < Config.font.toList.length := by rw [Vector.length_toList]; exact a.isLt
  rw [resetByte, List.getD_eq_getElem _ _ ha, Vector.getElem_toList]

/-- Settles O51: memory has no cell at reset, so a byte is the font's or zero; the rest is read off. -/
theorem resetState : Obligations.ResetState :=
  ⟨by decide, rfl, rfl, rfl, by decide, rfl, rfl, fun _ => resetByte_of_ge, resetByte_of_lt, pixel_clear, rfl, rfl⟩

/-! ## Load -/

theorem wf_loadMemory (font : Vector Byte 80) (image : List Byte) : Memory.wf (loadMemory font image) :=
  wf_writeBytes _ _ (wf_writeBytes _ _ wf_reset)

theorem read_loadMemory_font (font : Vector Byte 80) (image : List Byte) (a : Fin 80) :
    Memory.read (loadMemory font image) a.val = font[a.val] := by
  have hlen : font.toList.length = 80 := Vector.length_toList
  have ha : a.val < font.toList.length := by omega
  have hin := read_writeBytes_inside 0 a.val font.toList wf_reset ha (by omega)
  rw [Nat.zero_add] at hin
  rw [loadMemory, read_writeBytes_outside _ _ _ _ (.inl (show a.val < 0x200 by omega))]
  exact hin.trans (Vector.getElem_toList ha)

theorem read_loadMemory_image (font : Vector Byte 80) {image : List Byte} (hmax : image.length ≤ 3584) (k : Nat)
    (hk : k < image.length) : Memory.read (loadMemory font image) (0x200 + k) = image[k] :=
  read_writeBytes_inside _ k image (wf_writeBytes _ _ wf_reset) hk
    (show 0x200 + image.length ≤ 4096 by omega)

/-- Every other byte is the one at reset, which is zero past the font. -/
theorem read_loadMemory_of_ge (font : Vector Byte 80) (image : List Byte) {a : Nat} (h80 : 80 ≤ a)
    (hout : a < 0x200 ∨ 0x200 + image.length ≤ a) : Memory.read (loadMemory font image) a = 0 := by
  rw [loadMemory, read_writeBytes_outside _ _ _ _ hout, read_writeBytes_outside _ _ _ _ (.inr ?_)]
  · exact resetByte_of_ge h80
  · rw [Vector.length_toList]; exact h80

/-- The reset state with any memory in canonical form. -/
theorem inv_reset_withMem {m : Memory} (hm : Memory.wf m) : Inv { State.reset with Mem := m } :=
  ⟨hm, resetHasTheInvariant.pc, resetHasTheInvariant.stack, rfl⟩

/-- Settles O52: the two errors by length; else memory is two runs of writes, each read back and missed by the rest. -/
theorem loadBuildsTheInitialState : Obligations.LoadBuildsTheInitialState := by
  intro font image
  refine ⟨fun h0 => if_pos h0, fun hbig => ?tooLarge, fun hpos hmax => ?loaded⟩
  case tooLarge => rw [State.load, if_neg (by omega), if_pos hbig]
  case loaded =>
    refine ⟨{ State.reset with Mem := loadMemory font image }, ?_, read_loadMemory_font font image,
      fun a h80 hlt => read_loadMemory_of_ge font image h80 (.inl hlt), read_loadMemory_image font hmax,
      fun a ha => read_loadMemory_of_ge font image (by omega) (.inr ha),
      rfl, inv_reset_withMem (wf_loadMemory font image)⟩
    rw [State.load, if_neg (by omega), if_neg (Nat.not_lt.2 hmax)]

end Sys2Proof.Machine
end
